-- ==== Sys2Proof/Config.lean ====
section
/-! DEFINITION. The parameters of the block: the configuration record and the values `State.reset` takes for it. -/

namespace Sys2Proof

/-- The configuration record of a match, after validation (10_state R30): fixed for the whole match, read by
the machine, never written by an instruction. The host's unvalidated record is `Machine.ConfigInput`. -/
structure Cfg where
  /-- core_size, C. -/
  coreSize : Nat
  /-- read_distance, dR. -/
  readDistance : Nat
  /-- write_distance, dW. -/
  writeDistance : Nat
  /-- max_processes_per_warrior, MAXP. -/
  maxProcesses : Nat
  /-- pspace_size, P. -/
  pspaceSize : Nat
  /-- max_cycles, MAXC. -/
  maxCycles : Nat
  /-- min_separation, MINSEP: any integer; below 0 it acts as 0. -/
  minSeparation : Int
deriving DecidableEq, Repr

namespace Config

/-- The core size of spec/opcode_table.json and the default of core_size (00_scope R8). -/
def defaultCoreSize : Nat := 8000

/-- The configuration in `State.reset`. C, dR and dW are the spec's defaults (00_scope R8, D35). MAXP, P, MAXC
and MINSEP have no default in the spec; the values here are PRESUMED, unsafe: the customary ones of the family
(93_implementation_defined K5), log entry 3. -/
def resetCfg : Cfg :=
  { coreSize := 8000, readDistance := 8000, writeDistance := 8000, maxProcesses := 8000,
    pspaceSize := 500, maxCycles := 80000, minSeparation := 100 }

end Config

end Sys2Proof
end

