-- ==== Sys2Proof/Syntax.lean ====
section
/-! DEFINITION. The instruction set as syntax: the record a core cell holds, and one constructor per row of the opcode table. -/

namespace Sys2Proof

/-- The opcodes (30_encoding R72). SEQ is not one: it is a second mnemonic of CMP (30_encoding R87). -/
inductive Opcode where
  | dat | mov | add | sub | mul | div | mod | jmp | jmz | jmn | djn | spl | cmp | sne | slt | ldp | stp | nop
deriving DecidableEq, Repr

/-- The seven modifiers (30_encoding R73). -/
inductive Modifier where
  | a | b | ab | ba | f | x | i
deriving DecidableEq, Repr

/-- The eight address modes (30_encoding R74). -/
inductive Mode where
  /-- `#` -/
  | immediate
  /-- `$` -/
  | direct
  /-- `*` -/
  | aIndirect
  /-- `@` -/
  | bIndirect
  /-- `{` -/
  | aPredec
  /-- `<` -/
  | bPredec
  /-- `}` -/
  | aPostinc
  /-- `>` -/
  | bPostinc
deriving DecidableEq, Repr

/-- One field of an instruction: an address mode and a value, which is canonical, in `[0, C)`, wherever the
instruction is well-formed (30_encoding R71, R77). -/
structure InstrField where
  mode : Mode
  value : Nat
deriving DecidableEq, Repr

/-- What one core cell holds, the record (opcode, modifier, A-field, B-field) (00_scope R17, 30_encoding R70).
Equality of records is the whole-instruction equality of CMP.I and SNE.I. -/
structure Record where
  op : Opcode
  mod : Modifier
  a : InstrField
  b : InstrField
deriving DecidableEq, Repr

/-- The two fields of an instruction, as the modifier tables select them (40_operands R122). -/
inductive Sel where
  | a | b
deriving DecidableEq, Repr

/-- One constructor per row of spec/opcode_table.json: modifier, A-field, B-field. `seq` is the row SEQ, a second
spelling of `cmp` with the same code and the same record (44_compare R192); the decoder never answers it. -/
inductive Instr where
  | dat (m : Modifier) (a b : InstrField)
  | mov (m : Modifier) (a b : InstrField)
  | add (m : Modifier) (a b : InstrField)
  | sub (m : Modifier) (a b : InstrField)
  | mul (m : Modifier) (a b : InstrField)
  | div (m : Modifier) (a b : InstrField)
  | mod (m : Modifier) (a b : InstrField)
  | jmp (m : Modifier) (a b : InstrField)
  | jmz (m : Modifier) (a b : InstrField)
  | jmn (m : Modifier) (a b : InstrField)
  | djn (m : Modifier) (a b : InstrField)
  | spl (m : Modifier) (a b : InstrField)
  | cmp (m : Modifier) (a b : InstrField)
  | sne (m : Modifier) (a b : InstrField)
  | slt (m : Modifier) (a b : InstrField)
  | ldp (m : Modifier) (a b : InstrField)
  | stp (m : Modifier) (a b : InstrField)
  | nop (m : Modifier) (a b : InstrField)
  | seq (m : Modifier) (a b : InstrField)
deriving DecidableEq, Repr

end Sys2Proof
end

