-- ==== Sys2Proof/Decode.lean ====
section
/-! DEFINITION. Structural validity, the decoder of packed words, total, rejecting by name, and after it the encoder. -/

namespace Sys2Proof

/-- Why an instruction is structurally invalid (60_exceptions R246). Such an instruction never enters core
(30_encoding R79). -/
inductive ValidationError where
  /-- Opcode code 18 to 31 (30_encoding R80). -/
  | badOpcode
  /-- Modifier code 7 (30_encoding R81). -/
  | badModifier
  /-- A modifier not legal for the opcode (30_encoding R78). -/
  | badCombination
  /-- A field value of C or more (30_encoding R82). -/
  | badValue
deriving DecidableEq, Repr

/-- The codes of 60_exceptions R246. -/
def ValidationError.code : ValidationError → Nat
  | .badOpcode => 1
  | .badModifier => 2
  | .badCombination => 3
  | .badValue => 4

/-! ## Instructions and records -/

/-- The record of an instruction; SEQ's is CMP's (30_encoding R87). -/
def Instr.record : Instr → Record
  | .dat m a b => ⟨.dat, m, a, b⟩
  | .mov m a b => ⟨.mov, m, a, b⟩
  | .add m a b => ⟨.add, m, a, b⟩
  | .sub m a b => ⟨.sub, m, a, b⟩
  | .mul m a b => ⟨.mul, m, a, b⟩
  | .div m a b => ⟨.div, m, a, b⟩
  | .mod m a b => ⟨.mod, m, a, b⟩
  | .jmp m a b => ⟨.jmp, m, a, b⟩
  | .jmz m a b => ⟨.jmz, m, a, b⟩
  | .jmn m a b => ⟨.jmn, m, a, b⟩
  | .djn m a b => ⟨.djn, m, a, b⟩
  | .spl m a b => ⟨.spl, m, a, b⟩
  | .cmp m a b => ⟨.cmp, m, a, b⟩
  | .sne m a b => ⟨.sne, m, a, b⟩
  | .slt m a b => ⟨.slt, m, a, b⟩
  | .ldp m a b => ⟨.ldp, m, a, b⟩
  | .stp m a b => ⟨.stp, m, a, b⟩
  | .nop m a b => ⟨.nop, m, a, b⟩
  | .seq m a b => ⟨.cmp, m, a, b⟩

/-- The instruction a record is: code 12 reads as CMP (30_encoding R87). -/
def Record.instr (r : Record) : Instr :=
  match r.op with
  | .dat => .dat r.mod r.a r.b
  | .mov => .mov r.mod r.a r.b
  | .add => .add r.mod r.a r.b
  | .sub => .sub r.mod r.a r.b
  | .mul => .mul r.mod r.a r.b
  | .div => .div r.mod r.a r.b
  | .mod => .mod r.mod r.a r.b
  | .jmp => .jmp r.mod r.a r.b
  | .jmz => .jmz r.mod r.a r.b
  | .jmn => .jmn r.mod r.a r.b
  | .djn => .djn r.mod r.a r.b
  | .spl => .spl r.mod r.a r.b
  | .cmp => .cmp r.mod r.a r.b
  | .sne => .sne r.mod r.a r.b
  | .slt => .slt r.mod r.a r.b
  | .ldp => .ldp r.mod r.a r.b
  | .stp => .stp r.mod r.a r.b
  | .nop => .nop r.mod r.a r.b

/-- The spelling the decoder gives: SEQ is read back as CMP (30_encoding R87), every other instruction as itself. -/
def Instr.canonical : Instr → Instr
  | .seq m a b => .cmp m a b
  | i => i

/-! ## Legality (30_encoding R78, R79) -/

/-- The legal modifier set of each opcode, row by row of 30_encoding R78. -/
def legalModifiers : Opcode → List Modifier
  | .dat | .jmp | .spl | .nop => [.a, .b, .ab, .ba, .f, .x, .i]
  | .mov => [.a, .b, .ab, .ba, .f, .x, .i]
  | .cmp | .sne => [.a, .b, .ab, .ba, .f, .x, .i]
  | .add | .sub | .mul | .div | .mod => [.a, .b, .ab, .ba, .f, .x]
  | .slt | .jmz | .jmn | .djn => [.a, .b, .ab, .ba, .f, .x]
  | .ldp | .stp => [.a, .b, .ab, .ba]

/-- The tests of 30_encoding R85 that a record can fail, in that rule's order: the combination, the A-value, the
B-value. `none` is a structurally valid record for a core of `C` cells. -/
def Record.check (C : Nat) (r : Record) : Option ValidationError :=
  if !(legalModifiers r.op).contains r.mod then some .badCombination
  else if C ≤ r.a.value then some .badValue
  else if C ≤ r.b.value then some .badValue
  else none

/-! ## Codes (30_encoding R72 to R74) -/

/-- 30_encoding R72. -/
def Opcode.code : Opcode → Nat
  | .dat => 0
  | .mov => 1
  | .add => 2
  | .sub => 3
  | .mul => 4
  | .div => 5
  | .mod => 6
  | .jmp => 7
  | .jmz => 8
  | .jmn => 9
  | .djn => 10
  | .spl => 11
  | .cmp => 12
  | .sne => 13
  | .slt => 14
  | .ldp => 15
  | .stp => 16
  | .nop => 17

/-- 30_encoding R72; codes 18 to 31 are reserved (R80). -/
def opcodeOfCode : Nat → Option Opcode
  | 0 => some .dat
  | 1 => some .mov
  | 2 => some .add
  | 3 => some .sub
  | 4 => some .mul
  | 5 => some .div
  | 6 => some .mod
  | 7 => some .jmp
  | 8 => some .jmz
  | 9 => some .jmn
  | 10 => some .djn
  | 11 => some .spl
  | 12 => some .cmp
  | 13 => some .sne
  | 14 => some .slt
  | 15 => some .ldp
  | 16 => some .stp
  | 17 => some .nop
  | _ => none

/-- 30_encoding R73. -/
def Modifier.code : Modifier → Nat
  | .a => 0
  | .b => 1
  | .ab => 2
  | .ba => 3
  | .f => 4
  | .x => 5
  | .i => 6

/-- 30_encoding R73; code 7 is reserved (R81). -/
def modifierOfCode : Nat → Option Modifier
  | 0 => some .a
  | 1 => some .b
  | 2 => some .ab
  | 3 => some .ba
  | 4 => some .f
  | 5 => some .x
  | 6 => some .i
  | _ => none

/-- 30_encoding R74. -/
def Mode.code : Mode → Nat
  | .immediate => 0
  | .direct => 1
  | .aIndirect => 2
  | .bIndirect => 3
  | .aPredec => 4
  | .bPredec => 5
  | .aPostinc => 6
  | .bPostinc => 7

/-- 30_encoding R74. The argument is a 3-bit field and all eight codes are used, so the last line is code 7. -/
def modeOfCode : Nat → Mode
  | 0 => .immediate
  | 1 => .direct
  | 2 => .aIndirect
  | 3 => .bIndirect
  | 4 => .aPredec
  | 5 => .bPredec
  | 6 => .aPostinc
  | _ => .bPostinc

/-! ## The packed word (30_encoding R75, R76) -/

/-- `W = max(1, ceil(log2 C))`, the least number of bits that holds every value in `[0, C)` (30_encoding R76).
`log2` is the floor of the logarithm and answers 0 for 0, so that the formula gives 1 for C = 1 and C = 2. For C = 0,
which R76 leaves without a width, it also gives 1 (DESIGN CHOICE: log entry 20). -/
def valueWidth (C : Nat) : Nat := Nat.log2 (C - 1) + 1

/-- `bits[lo+n-1 : lo]`, the `n`-bit field whose lowest bit is `lo` (00_scope R10). -/
def bitField (w lo n : Nat) : Nat := w / 2 ^ lo % 2 ^ n

/-- The decoder of 30_encoding R85: the opcode code, the modifier code, the combination, the A-value, the B-value,
the first failure reported. A number of more than `14 + 2W` bits is no word of this hardware; its opcode field is
read without an upper end, so that it is refused as `badOpcode` (DESIGN CHOICE, safe: log entry 11). -/
def decodeRecord (C w : Nat) : Except ValidationError Record :=
  let W := valueWidth C
  match opcodeOfCode (w / 2 ^ (2 * W + 9)) with
  | none => .error .badOpcode
  | some op =>
    match modifierOfCode (bitField w (2 * W + 6) 3) with
    | none => .error .badModifier
    | some m =>
      let r : Record :=
        { op := op, mod := m,
          a := { mode := modeOfCode (bitField w (2 * W + 3) 3), value := bitField w (W + 3) W },
          b := { mode := modeOfCode (bitField w W 3), value := bitField w 0 W } }
      match r.check C with
      | some e => .error e
      | none => .ok r

/-- The instruction of a packed word for a core of `C` cells. -/
def decode (C w : Nat) : Except ValidationError Instr :=
  match decodeRecord C w with
  | .ok r => .ok r.instr
  | .error e => .error e

/-- The decoder on a word of spec/opcode_table.json, whose rows are those of C = 8000 (W = 13, 40 bits). Every bit
the instruction has above `nbits` is 0. -/
def decodeTableWord (nbits w : Nat) : Option Instr :=
  match decode Config.defaultCoreSize (w % 2 ^ nbits) with
  | .ok i => some i
  | .error _ => none

/-! ## The encoder -/

/-- The packed word of a record, field by field of 30_encoding R75. -/
def encodeRecord (C : Nat) (r : Record) : Nat :=
  let W := valueWidth C
  r.op.code * 2 ^ (2 * W + 9) + r.mod.code * 2 ^ (2 * W + 6) + r.a.mode.code * 2 ^ (2 * W + 3)
    + r.a.value * 2 ^ (W + 3) + r.b.mode.code * 2 ^ W + r.b.value

/-- The packed word of an instruction for a core of `C` cells. -/
def encode (C : Nat) (i : Instr) : Nat := encodeRecord C i.record

end Sys2Proof
end

