-- ==== Sys2Proof/Machine/State.lean ====
section
/-! DEFINITION. The whole state of one match instance (10_state R39), as plain data, and the machine after reset. -/

namespace Sys2Proof.Machine

/-- A memory as plain data: (address, content) pairs, addresses strictly rising, no pair that holds what an
unlisted address reads as (`sparseWf` of Machine/Ops.lean). The unit of addressing is the cell, not the byte
(20_memory R53; DESIGN CHOICE, safe: log entries 1 and 2). -/
abbrev Sparse (α : Type) := List (Nat × α)

/-- The core: one record per cell (10_state R24, R25). -/
abbrev CoreMem := Sparse Record

/-- What belongs to one warrior: its id, its queue of counters, front first (10_state R22), and its p-space
(10_state R27). Its index in `State.warriors` is its place in the rotation order (10_state R35). -/
structure Warrior where
  /-- ids[w] (10_state R35). The host's identifiers stand as naturals (DESIGN CHOICE, safe: log entry 7). -/
  id : Nat
  /-- Q[w], the counters of the warrior's processes, front first. -/
  queue : List Nat
  /-- PS[w], by index. -/
  pspace : Sparse Nat
deriving DecidableEq, Repr

/-- The outcome of a match (10_state R33). A Draw's set of ids is held as a list in rotation order; its order means
nothing (70_reset R322; DESIGN CHOICE, safe: log entry 10). -/
inductive MatchOutcome where
  | win (id : Nat)
  | draw (ids : List Nat)
deriving DecidableEq, Repr

/-- `status` (10_state R33). -/
inductive Status where
  | running
  | ended (o : MatchOutcome)
deriving DecidableEq, Repr

/-- The complete state of a match instance (10_state R39). N is the number of warriors in the list. -/
structure State where
  cfg : Cfg
  core : CoreMem
  warriors : List Warrior
  /-- cycle_count: passes begun (10_state R29). -/
  cycleCount : Nat
  /-- turn_ptr: where in the rotation the next turn looks first (10_state R32). -/
  turnPtr : Nat
  /-- N0: the number of warriors at setup (10_state R41). -/
  n0 : Nat
  status : Status
deriving DecidableEq, Repr

/-- What stops the machine. The hardware has no run-time error (60_exceptions R245); process death is a next state. -/
inductive Fault where
  /-- Raised by a turn when the match is Running and no warrior at or after the cursor has a process: a state that
  60_exceptions R258 excludes, and for which R262 names no warrior. Safe: it stops where the spec gives no effect
  (DESIGN CHOICE: log entry 8). -/
  | noActiveProcess
deriving DecidableEq, Repr

/-- What the model gives no meaning to. -/
inductive Refusal where
  /-- Raised by an arm of `exec` that has no meaning yet. Safe. -/
  | notModelled (mnemonic : String)
  /-- Raised by a turn whose instruction is structurally invalid (30_encoding R79: the execution unit never decodes
  one). Safe: no core that setup loaded can hold one (log entry 9). -/
  | invalidInstruction (cause : ValidationError)
deriving DecidableEq, Repr

/-- The machine after a match reset (10_state R40, 70_reset R300): core and p-space with nothing listed,
cycle_count and turn_ptr 0, status Running. R40 gives every warrior one process at its load address; the spec leaves
open how many warriors there are and where they lie, and this state takes the least legal match: one warrior, id 0,
at load address 0 (DESIGN CHOICE, unsafe: log entry 4). Its configuration is `Config.resetCfg` (log entry 3). -/
def State.reset : State :=
  { cfg := Config.resetCfg
    core := []
    warriors := [{ id := 0, queue := [0], pspace := [] }]
    cycleCount := 0
    turnPtr := 0
    n0 := 1
    status := .running }

end Sys2Proof.Machine
end

