-- ==== Sys2Proof/Word.lean ====
section
/-! DEFINITION. The numbers of the machine: canonical residues modulo the core size. -/

namespace Sys2Proof

/-- `modC(v) = v mod C`, the least non-negative residue of a mathematical integer, so that it lies in
`[0, C)` for negative `v` too (00_scope R9). Every address, counter and field value goes through it. -/
def modC (C : Nat) (v : Int) : Nat := (v % (C : Int)).toNat

end Sys2Proof
end

