-- ==== Sys2Proof/Machine/Ops.lean ====
section
/-! DEFINITION. The named operations over core, p-space and queues, and the three ways a turn ends, process death among them. -/

namespace Sys2Proof.Machine

/-! ## Sparse memories -/

/-- What address `a` reads as; `d` is what an unlisted address reads as. -/
def sparseRead {α : Type} (d : α) : Sparse α → Nat → α
  | [], _ => d
  | (b, v) :: m, a => if a = b then v else sparseRead d m a

/-- Store `v` at `a`, keeping the canonical form: the pair is dropped when `v` is what an unlisted address reads as. -/
def sparseWrite {α : Type} [DecidableEq α] (d : α) : Sparse α → Nat → α → Sparse α
  | [], a, v => if v = d then [] else [(a, v)]
  | (b, x) :: m, a, v =>
    if a < b then (if v = d then (b, x) :: m else (a, v) :: (b, x) :: m)
    else if a = b then (if v = d then m else (a, v) :: m)
    else (b, x) :: sparseWrite d m a v

/-- The canonical form: addresses strictly rising, and no pair that holds what an unlisted address reads as. -/
def sparseWf {α : Type} [DecidableEq α] (d : α) (m : Sparse α) : Bool :=
  decide (m.Pairwise fun x y => x.1 < y.1) && m.all fun e => decide (e.2 ≠ d)

/-! ## Core -/

/-- What an unlisted core cell reads as: the reset fill `DAT.F #0, #0` (70_reset R301). -/
def coreFill : Record :=
  { op := .dat, mod := .f, a := { mode := .immediate, value := 0 }, b := { mode := .immediate, value := 0 } }

/-- What an unlisted p-space cell reads as: 0 (70_reset R302). -/
def pspaceFill : Nat := 0

/-- One field's value (00_scope R11). -/
def valueOf (r : Record) : Sel → Nat
  | .a => r.a.value
  | .b => r.b.value

/-- The record with one field's value replaced; mode, other field, opcode and modifier stay (20_memory R55 d). -/
def withValue (r : Record) (f : Sel) (v : Nat) : Record :=
  match f with
  | .a => { r with a := { r.a with value := v } }
  | .b => { r with b := { r.b with value := v } }

/-- `MemRead(a, 1)`: the whole cell `a mod C` (00_scope R11, 20_memory R51). -/
def memRead (C : Nat) (core : CoreMem) (a : Nat) : Record :=
  sparseRead coreFill core (modC C a)

/-- `MemWrite(a, 1, v)`: the whole record into cell `a mod C`. -/
def memWrite (C : Nat) (core : CoreMem) (a : Nat) (v : Record) : CoreMem :=
  sparseWrite coreFill core (modC C a) v

/-- `core[a].f.value <- v`: one field value, every other part of the cell unchanged (00_scope R11). -/
def memWriteValue (C : Nat) (core : CoreMem) (a : Nat) (f : Sel) (v : Nat) : CoreMem :=
  memWrite C core a (withValue (memRead C core a) f v)

/-- The cell `a mod C` of a state's core. -/
def readCell (s : State) (a : Nat) : Record := memRead s.cfg.coreSize s.core a

/-- The state with another core. -/
def setCore (s : State) (core : CoreMem) : State := { s with core := core }

/-- `MemWrite(a, 1, v)` on a state. -/
def writeCell (s : State) (a : Nat) (v : Record) : State :=
  setCore s (memWrite s.cfg.coreSize s.core a v)

/-- `core[a].f.value <- v` on a state. -/
def writeValue (s : State) (a : Nat) (f : Sel) (v : Nat) : State :=
  setCore s (memWriteValue s.cfg.coreSize s.core a f v)

/-! ## Warriors -/

/-- The state with warrior `w` changed by `f`; the other warriors stay. -/
def updateWarrior (s : State) (w : Nat) (f : Warrior → Warrior) : State :=
  { s with warriors := s.warriors.modify w f }

/-- `Q[w]`; a number that is no warrior's has no process. -/
def queueOf (s : State) (w : Nat) : List Nat :=
  match s.warriors[w]? with
  | some x => x.queue
  | none => []

/-- The state with another `Q[w]`. -/
def setQueue (s : State) (w : Nat) (q : List Nat) : State :=
  updateWarrior s w fun x => { x with queue := q }

/-- `enqueue(Q[w], modC(p))` (40_operands R127). -/
def enqueue (s : State) (w p : Nat) : State :=
  setQueue s w (queueOf s w ++ [modC s.cfg.coreSize p])

/-- `PS[w]`. -/
def pspaceOf (s : State) (w : Nat) : Sparse Nat :=
  match s.warriors[w]? with
  | some x => x.pspace
  | none => []

/-- `PRead(w, i)`: p-space cell `i mod P` of warrior `w` (00_scope R11, 20_memory R52). -/
def pRead (s : State) (w i : Nat) : Nat :=
  sparseRead pspaceFill (pspaceOf s w) (i % s.cfg.pspaceSize)

/-- `PWrite(w, i, v)`: store into p-space cell `i mod P` of warrior `w` (00_scope R11). -/
def pWrite (s : State) (w i v : Nat) : State :=
  updateWarrior s w fun x =>
    { x with pspace := sparseWrite pspaceFill x.pspace (i % s.cfg.pspaceSize) v }

/-! ## How a turn ends (00_scope R12) -/

/-- Why a process died (60_exceptions R241). -/
inductive DeathCause where
  | datExecuted
  | divideByZero
deriving DecidableEq, Repr

/-- The codes of 60_exceptions R241, invisible to programs. -/
def DeathCause.code : DeathCause → Nat
  | .datExecuted => 1
  | .divideByZero => 2

/-- The three ways a turn ends (00_scope R12). -/
inductive TurnOut where
  /-- The process is requeued at this counter. -/
  | next (p : Nat)
  /-- The process is requeued at `p`, and a new process behind it at `t`. -/
  | split (p t : Nat)
  /-- The process is gone. -/
  | death (c : DeathCause)
deriving DecidableEq, Repr

/-- The outcome with its counters reduced modulo C, as the host observes it (40_operands R127, R129). -/
def TurnOut.reduced (C : Nat) : TurnOut → TurnOut
  | .next p => .next (modC C p)
  | .split p t => .split (modC C p) (modC C t)
  | .death c => .death c

/-- `raise ProcessDeath(cause)`, the hardware's only run-time exception (60_exceptions R240, R242). The executing
process left its queue when the turn began, so that taking the death enqueues nothing and undoes nothing: every write
of the turn stays (R244), the other processes keep their order, no counter is saved and no control is transferred
(R250). There is no return from it. -/
def raiseDeath (s : State) (_w : Nat) (_cause : DeathCause) : State := s

/-- The end of a turn of warrior `w`: one counter enqueued, or two, or none (40_operands R100, R127). -/
def endTurn (s : State) (w : Nat) (out : TurnOut) : State :=
  match out with
  | .next p => enqueue s w p
  | .split p t => enqueue (enqueue s w p) w t
  | .death c => raiseDeath s w c

end Sys2Proof.Machine
end

