-- ==== Sys2Proof/Machine/Operands.lean ====
section
/-! DEFINITION. The address resolution unit: the eight address modes, the windows, the operand snapshots, the modifier tables. -/

namespace Sys2Proof.Machine

/-! ## The eight address modes (40_operands R103 to R110) -/

/-- The pointer cell of a field: `modC(pc + F.value)`. It does not pass through a window (40_operands R115). -/
def pointerCell (C pc : Nat) (f : InstrField) : Nat := modC C (pc + f.value)

/-- The field of the pointer cell that the mode changes as a side effect, if it changes one
(40_operands R107 to R110). -/
def sideEffect : Mode → Option Sel
  | .immediate => none
  | .direct => none
  | .aIndirect => none
  | .bIndirect => none
  | .aPredec => some .a
  | .bPredec => some .b
  | .aPostinc => some .a
  | .bPostinc => some .b

/-- Indirection through one field of the pointer cell, read live, with no side effect (40_operands R105, R106). -/
def resolveIndirect (C ptr : Nat) (f : Sel) (core : CoreMem) : Nat × CoreMem :=
  (modC C (ptr + valueOf (memRead C core ptr) f), core)

/-- Predecrement: the field is decremented in place, and the decremented value indirects (40_operands R107, R108). -/
def resolvePredec (C ptr : Nat) (f : Sel) (core : CoreMem) : Nat × CoreMem :=
  let v := modC C ((valueOf (memRead C core ptr) f : Int) - 1)
  (modC C (ptr + v), memWriteValue C core ptr f v)

/-- Postincrement: the value before the increment indirects, and the field is incremented in place before the
resolution returns (40_operands R109, R110). -/
def resolvePostinc (C ptr : Nat) (f : Sel) (core : CoreMem) : Nat × CoreMem :=
  let t := valueOf (memRead C core ptr) f
  (modC C (ptr + t), memWriteValue C core ptr f (modC C (t + 1)))

/-- `Resolve(pc, F)`: the address a field denotes and the core after its side effect. The field is the latched
instruction's; the pointer cell is read live (40_operands R103 to R110, R112). -/
def resolve (C pc : Nat) (f : InstrField) (core : CoreMem) : Nat × CoreMem :=
  let ptr := pointerCell C pc f
  match f.mode with
  | .immediate => (pc, core)
  | .direct => (ptr, core)
  | .aIndirect => resolveIndirect C ptr .a core
  | .bIndirect => resolveIndirect C ptr .b core
  | .aPredec => resolvePredec C ptr .a core
  | .bPredec => resolvePredec C ptr .b core
  | .aPostinc => resolvePostinc C ptr .a core
  | .bPostinc => resolvePostinc C ptr .b core

/-! ## Windows (20_memory R59, R60) -/

/-- The forward offset of `a` from `pc` read as a signed number in `[-floor(C/2), ceil(C/2) - 1]`; an offset of
exactly C/2 is negative (20_memory R59). -/
def signedOffset (C pc a : Nat) : Int :=
  let o : Int := modC C ((a : Int) - pc)
  if 2 * o < C then o else o - C

/-- `win(pc, a, d)`: the address clamped into `[pc - h, pc + h)` with `h = floor(d/2)`; the identity when `d = C`
(20_memory R59). -/
def win (C pc a d : Nat) : Nat :=
  if d = C then modC C a
  else
    let h : Int := ((d / 2 : Nat) : Int)
    let s := signedOffset C pc a
    let s := if s < -h then -h else s
    let s := if s > h - 1 then h - 1 else s
    modC C (pc + s)

/-- The read window (20_memory R60). -/
def winR (cfg : Cfg) (pc a : Nat) : Nat := win cfg.coreSize pc a cfg.readDistance

/-- The write window (20_memory R60). -/
def winW (cfg : Cfg) (pc a : Nat) : Nat := win cfg.coreSize pc a cfg.writeDistance

/-! ## Both operands (40_operands R100, R111, R114, R120) -/

/-- What the address resolution unit hands to the execution unit: transient, dead at the end of the turn
(10_state R34). -/
structure Operands where
  /-- The A-operand's resolved address. -/
  sa : Nat
  /-- The B-operand's resolved address. -/
  da : Nat
  /-- `sa` through the read window: S is read there, and every control transfer goes there. -/
  saR : Nat
  /-- `da` through the read window: D is read there. -/
  daR : Nat
  /-- `da` through the write window: every execute-phase write to core goes there. -/
  daW : Nat
  /-- The snapshot S. -/
  src : Record
  /-- The snapshot D. -/
  dst : Record
  /-- The core as it stands after both resolutions. -/
  core : CoreMem
deriving DecidableEq, Repr

/-- Resolve the A-operand, with its side effect, then the B-operand, with its own; window the addresses; take the two
snapshots from the core as it then stands. An Immediate operand's snapshot is the latched instruction
(40_operands R100, R111, R113, R114, R120). -/
def prepare (cfg : Cfg) (pc : Nat) (ir : Record) (core : CoreMem) : Operands :=
  let ra := resolve cfg.coreSize pc ir.a core
  let rb := resolve cfg.coreSize pc ir.b ra.2
  let saR := winR cfg pc ra.1
  let daR := winR cfg pc rb.1
  { sa := ra.1
    da := rb.1
    saR := saR
    daR := daR
    daW := winW cfg pc rb.1
    src := if ir.a.mode = .immediate then ir else memRead cfg.coreSize rb.2 saR
    dst := if ir.b.mode = .immediate then ir else memRead cfg.coreSize rb.2 daR
    core := rb.2 }

/-- The p-space index of LDP and STP before its reduction modulo P: the literal of an Immediate B-operand, else the
unwindowed resolved address (45_pspace R210). `PRead` and `PWrite` reduce it. -/
def pspaceIndex (ir : Record) (o : Operands) : Nat :=
  if ir.b.mode = .immediate then ir.b.value else o.da

/-! ## Modifier tables (40_operands R122, R123; 45_pspace R211, R212) -/

/-- `pairs(mod)`: (source field, destination field). Modifier I selects the whole record, which MOV, CMP and SNE
treat apart; no other instruction that uses this table may carry it (30_encoding R78). -/
def pairs : Modifier → List (Sel × Sel)
  | .a => [(.a, .a)]
  | .b => [(.b, .b)]
  | .ab => [(.a, .b)]
  | .ba => [(.b, .a)]
  | .f => [(.a, .a), (.b, .b)]
  | .x => [(.a, .b), (.b, .a)]
  | .i => []

/-- `tfields(mod)`: the destination sides of `pairs(mod)` (40_operands R123). -/
def tfields : Modifier → List Sel
  | .a => [.a]
  | .b => [.b]
  | .ab => [.b]
  | .ba => [.a]
  | .f => [.a, .b]
  | .x => [.a, .b]
  | .i => []

/-- The modifier's destination letter, for LDP (45_pspace R211). -/
def destLetter : Modifier → Sel
  | .a | .ba => .a
  | _ => .b

/-- The modifier's source letter, for STP (45_pspace R212). -/
def sourceLetter : Modifier → Sel
  | .a | .ab => .a
  | _ => .b

/-- Write field values into one cell, in order: `core[a].f.value <- v` for each (f, v). -/
def writeValues (s : State) (a : Nat) : List (Sel × Nat) → State
  | [] => s
  | (f, v) :: rest => writeValues (writeValue s a f v) a rest

end Sys2Proof.Machine
end

