-- ==== Sys2Proof/Machine/Flags.lean ====
section
/-! DEFINITION. The hardware has no flags (10_state R37): the tests its conditional instructions make on field values stand here. -/

namespace Sys2Proof.Machine

/-- `equal(mod)`: all selected pairs equal; under I the whole records (44_compare R190). -/
def equalTest (m : Modifier) (src dst : Record) : Bool :=
  match m with
  | .i => decide (src = dst)
  | m => (pairs m).all fun p => decide (valueOf src p.1 = valueOf dst p.2)

/-- `less(mod)`: every selected pair less, unsigned on `[0, C)` (44_compare R190). -/
def lessTest (m : Modifier) (src dst : Record) : Bool :=
  (pairs m).all fun p => decide (valueOf src p.1 < valueOf dst p.2)

/-- JMZ's test: every selected field zero (43_control R172). -/
def allZero (m : Modifier) (r : Record) : Bool :=
  (tfields m).all fun f => decide (valueOf r f = 0)

/-- JMN's test: some selected field non-zero (43_control R173). -/
def anyNonzero (m : Modifier) (r : Record) : Bool :=
  (tfields m).any fun f => decide (valueOf r f ≠ 0)

end Sys2Proof.Machine
end

