-- ==== Sys2Proof/Machine/Scheduler.lean ====
section
/-! DEFINITION. The process scheduler and the end of a match: whose turn it is, the cursor, the pass counter, the outcome. -/

namespace Sys2Proof.Machine

/-- A warrior is Active while its queue is non-empty (10_state R36). -/
def isActive (s : State) (w : Nat) : Bool := !(queueOf s w).isEmpty

/-- The least `i` with `turn_ptr <= i < N` and `Q[i]` non-empty (60_exceptions R262). -/
def nextActive (s : State) : Option Nat :=
  (List.range s.warriors.length).find? fun i => decide (s.turnPtr ≤ i) && isActive s i

/-- Some `i` with `w < i < N` has a process (60_exceptions R262). -/
def laterActive (s : State) (w : Nat) : Bool :=
  (List.range s.warriors.length).any fun i => decide (w < i) && isActive s i

/-- The ids of the Active warriors, in rotation order (60_exceptions R264). -/
def activeIds (s : State) : List Nat :=
  (s.warriors.filter fun x => !x.queue.isEmpty).map (·.id)

/-- `active(M)` (60_exceptions R263). -/
def activeCount (s : State) : Nat := (activeIds s).length

/-- `E`: 1 with two or more warriors at setup, else 0 (60_exceptions R263). -/
def endThreshold (s : State) : Nat := if 2 ≤ s.n0 then 1 else 0

/-- `EndCondition(M)` (60_exceptions R263). -/
def endCondition (s : State) : Bool :=
  decide (activeCount s ≤ endThreshold s) ||
    (decide (s.cfg.maxCycles ≤ s.cycleCount) && decide (s.turnPtr = 0))

/-- `Outcome(M)` (60_exceptions R264). With N0 >= 2 and the threshold met, exactly one warrior is Active; the last line
of the inner match is a state that R264 excludes, and it names the warriors left (log entry 10). -/
def outcome (s : State) : MatchOutcome :=
  if activeCount s ≤ endThreshold s then
    if 2 ≤ s.n0 then
      match activeIds s with
      | [id] => .win id
      | ids => .draw ids
    else .draw []
  else .draw (activeIds s)

/-- The status that the end test gives a state (60_exceptions R262, R263). -/
def statusOf (s : State) : Status :=
  if endCondition s then .ended (outcome s) else .running

/-- The end test at the end of setup and of every turn: status becomes Ended exactly when the end condition holds. -/
def evaluateEnd (s : State) : State := { s with status := statusOf s }

/-- The first lines of a scheduler turn: a pass begins at `turn_ptr = 0` (60_exceptions R259, R262). -/
def beginPass (s : State) : State :=
  if s.turnPtr = 0 then { s with cycleCount := s.cycleCount + 1 } else s

/-- The cursor after warrior `w`'s turn (60_exceptions R262). -/
def advanceCursor (s : State) (w : Nat) : State :=
  { s with turnPtr := if laterActive s w then w + 1 else 0 }

/-- The last lines of a scheduler turn: the cursor, then the end test (60_exceptions R262). -/
def finishTurn (s : State) (w : Nat) : State := evaluateEnd (advanceCursor s w)

end Sys2Proof.Machine
end

