-- ==== Sys2Proof/Machine/Turn.lean ====
section
/-! DEFINITION. One turn of the execution unit (40_operands R100): dequeue, latch, resolve, execute, requeue. -/

namespace Sys2Proof.Machine

/-- The transient values of a turn (10_state R34), dead at its end. They are no field of State: no agent observes
them (20_memory R57; log entry 19). -/
structure Turn where
  /-- The executing warrior. -/
  w : Nat
  /-- The executing process's counter. -/
  pc : Nat
  /-- The warrior's process count, the executing process included. -/
  cnt : Nat
  /-- The latched instruction (40_operands R101). -/
  ir : Record
  /-- The resolved operands. -/
  o : Operands
deriving DecidableEq, Repr

/-- The turn's warrior and counter: the front process of the next Active warrior (60_exceptions R262). -/
def frontProcess (s : State) : Option (Nat × Nat × List Nat) :=
  match nextActive s with
  | none => none
  | some w =>
    match queueOf s w with
    | [] => none
    | pc :: rest => some (w, pc, rest)

/-- The steps of a turn up to the execute phase, with `ir` latched: the front process is dequeued, both operands are
resolved with their side effects, the snapshots are taken (40_operands R100). -/
def openTurn (ir : Record) (s : State) : Option (Turn × State) :=
  match frontProcess s with
  | none => none
  | some (w, pc, rest) =>
    let o := prepare s.cfg pc ir s.core
    some ({ w := w, pc := pc, cnt := rest.length + 1, ir := ir, o := o }, setCore (setQueue s w rest) o.core)

/-- One turn of the execution unit for the latched instruction `ir`, with `unit` the execute phase. A structurally
invalid instruction is refused (30_encoding R79; log entry 9); a state with no process to run has no turn (log entry 8). -/
def runTurn (ir : Record) (unit : Turn → State → State × TurnOut) (s : State) :
    Host.Outcome State Fault Refusal :=
  match ir.check s.cfg.coreSize with
  | some e => .refused (.invalidInstruction e)
  | none =>
    match openTurn ir s with
    | none => .fault .noActiveProcess
    | some (t, s1) => .next (endTurn (unit t s1).1 t.w (unit t s1).2)

/-- The outcome `next(pc + 1)` (40_operands R125). -/
def advance (t : Turn) : TurnOut := .next (t.pc + 1)

/-- The outcome of a skip test: `next(pc + 2)` when taken, else `next(pc + 1)` (40_operands R126). -/
def skipIf (t : Turn) (taken : Bool) : TurnOut := if taken then .next (t.pc + 2) else advance t

/-- The outcome of a conditional jump: the A-operand's address through the read window when taken, else the next cell
(43_control R170). -/
def jumpIf (t : Turn) (taken : Bool) : TurnOut := if taken then .next t.o.saR else advance t

end Sys2Proof.Machine
end

