-- ==== Sys2Proof/Machine/Arith.lean ====
section
/-! DEFINITION. ADD, SUB, MUL, DIV, MOD (42_arithmetic). -/

namespace Sys2Proof.Machine

/-! The laws of 42_arithmetic R150, destination operand left, source operand right; `none` is a zero divisor. -/

/-- `add(x, y) = modC(x + y)`. -/
def addLaw (C x y : Nat) : Option Nat := some (modC C ((x : Int) + y))

/-- `sub(x, y) = modC(x - y)`. -/
def subLaw (C x y : Nat) : Option Nat := some (modC C ((x : Int) - y))

/-- `mul(x, y) = modC(x * y)`. -/
def mulLaw (C x y : Nat) : Option Nat := some (modC C ((x : Int) * y))

/-- `div(x, y) = x / y`, floor, unsigned; a zero divisor has no quotient. -/
def divLaw (_C x y : Nat) : Option Nat := if y = 0 then none else some (x / y)

/-- `rem(x, y) = x mod y`, unsigned; a zero divisor has no remainder. -/
def remLaw (_C x y : Nat) : Option Nat := if y = 0 then none else some (x % y)

/-- The results of the selected pairs, each with its destination field, all computed from the snapshots
(42_arithmetic R151, 40_operands R121). -/
def arithResults (law : Nat → Nat → Nat → Option Nat) (C : Nat) (t : Turn) : List (Sel × Option Nat) :=
  (pairs t.ir.mod).map fun p => (p.2, law C (valueOf t.o.dst p.2) (valueOf t.o.src p.1))

/-- The results that are written: a pair with a zero divisor writes nothing (42_arithmetic R151). -/
def writtenResults : List (Sel × Option Nat) → List (Sel × Nat)
  | [] => []
  | (f, some v) :: rest => (f, v) :: writtenResults rest
  | (_, none) :: rest => writtenResults rest

/-- `ArithTurn(op)` (42_arithmetic R151): write the pairs' results, then die if any divisor was zero. -/
def arithUnit (law : Nat → Nat → Nat → Option Nat) (t : Turn) (s : State) : State × TurnOut :=
  let rs := arithResults law s.cfg.coreSize t
  (writeValues s t.o.daW (writtenResults rs),
    if rs.any (fun r => r.2.isNone) then .death .divideByZero else advance t)

/-- ADD's execute phase (42_arithmetic R152). -/
def addUnit : Turn → State → State × TurnOut := arithUnit addLaw
/-- SUB's execute phase (42_arithmetic R153). -/
def subUnit : Turn → State → State × TurnOut := arithUnit subLaw
/-- MUL's execute phase (42_arithmetic R154). -/
def mulUnit : Turn → State → State × TurnOut := arithUnit mulLaw
/-- DIV's execute phase (42_arithmetic R155). -/
def divUnit : Turn → State → State × TurnOut := arithUnit divLaw
/-- MOD's execute phase (42_arithmetic R156). -/
def modUnit : Turn → State → State × TurnOut := arithUnit remLaw

/-- ADD (42_arithmetic R152). -/
def execAdd (m : Modifier) (a b : InstrField) (s : State) : Host.Outcome State Fault Refusal :=
  runTurn ⟨.add, m, a, b⟩ addUnit s

/-- SUB (42_arithmetic R153). -/
def execSub (m : Modifier) (a b : InstrField) (s : State) : Host.Outcome State Fault Refusal :=
  runTurn ⟨.sub, m, a, b⟩ subUnit s

/-- MUL (42_arithmetic R154). -/
def execMul (m : Modifier) (a b : InstrField) (s : State) : Host.Outcome State Fault Refusal :=
  runTurn ⟨.mul, m, a, b⟩ mulUnit s

/-- DIV (42_arithmetic R155). -/
def execDiv (m : Modifier) (a b : InstrField) (s : State) : Host.Outcome State Fault Refusal :=
  runTurn ⟨.div, m, a, b⟩ divUnit s

/-- MOD (42_arithmetic R156). -/
def execMod (m : Modifier) (a b : InstrField) (s : State) : Host.Outcome State Fault Refusal :=
  runTurn ⟨.mod, m, a, b⟩ modUnit s

end Sys2Proof.Machine
end

