-- ==== Sys2Proof/Machine/Compare.lean ====
section
/-! DEFINITION. CMP, SEQ, SNE, SLT (44_compare). -/

namespace Sys2Proof.Machine

/-- CMP's execute phase: skip if equal (44_compare R191). -/
def cmpUnit (t : Turn) (s : State) : State × TurnOut :=
  (s, skipIf t (equalTest t.ir.mod t.o.src t.o.dst))

/-- SNE's execute phase: skip if not equal (44_compare R193). -/
def sneUnit (t : Turn) (s : State) : State × TurnOut :=
  (s, skipIf t (!equalTest t.ir.mod t.o.src t.o.dst))

/-- SLT's execute phase: skip if less (44_compare R194). -/
def sltUnit (t : Turn) (s : State) : State × TurnOut :=
  (s, skipIf t (lessTest t.ir.mod t.o.src t.o.dst))

/-- CMP (44_compare R191). -/
def execCmp (m : Modifier) (a b : InstrField) (s : State) : Host.Outcome State Fault Refusal :=
  runTurn ⟨.cmp, m, a, b⟩ cmpUnit s

/-- SEQ: CMP under a second mnemonic, with CMP's record and CMP's semantics (44_compare R192; log entry 5). -/
def execSeq (m : Modifier) (a b : InstrField) (s : State) : Host.Outcome State Fault Refusal :=
  runTurn ⟨.cmp, m, a, b⟩ cmpUnit s

/-- SNE (44_compare R193). -/
def execSne (m : Modifier) (a b : InstrField) (s : State) : Host.Outcome State Fault Refusal :=
  runTurn ⟨.sne, m, a, b⟩ sneUnit s

/-- SLT (44_compare R194). -/
def execSlt (m : Modifier) (a b : InstrField) (s : State) : Host.Outcome State Fault Refusal :=
  runTurn ⟨.slt, m, a, b⟩ sltUnit s

end Sys2Proof.Machine
end

