-- ==== Sys2Proof/Machine/Control.lean ====
section
/-! DEFINITION. JMP, JMZ, JMN, DJN, SPL (43_control). -/

namespace Sys2Proof.Machine

/-- JMP's execute phase: `next(sa_r)` (43_control R171). -/
def jmpUnit (t : Turn) (s : State) : State × TurnOut := (s, .next t.o.saR)

/-- JMZ's execute phase (43_control R172). -/
def jmzUnit (t : Turn) (s : State) : State × TurnOut := (s, jumpIf t (allZero t.ir.mod t.o.dst))

/-- JMN's execute phase (43_control R173). -/
def jmnUnit (t : Turn) (s : State) : State × TurnOut := (s, jumpIf t (anyNonzero t.ir.mod t.o.dst))

/-- The decremented values of DJN's selected fields, computed from D (43_control R174). -/
def djnResults (C : Nat) (t : Turn) : List (Sel × Nat) :=
  (tfields t.ir.mod).map fun f => (f, modC C ((valueOf t.o.dst f : Int) - 1))

/-- DJN's execute phase: write the decremented values, jump if any of them is non-zero (43_control R174). -/
def djnUnit (t : Turn) (s : State) : State × TurnOut :=
  let rs := djnResults s.cfg.coreSize t
  (writeValues s t.o.daW rs, jumpIf t (rs.any fun r => decide (r.2 ≠ 0)))

/-- SPL's execute phase: a new process, unless the warrior is at the limit, the executing process counted
(43_control R175, R176). -/
def splUnit (t : Turn) (s : State) : State × TurnOut :=
  (s, if t.cnt < s.cfg.maxProcesses then .split (t.pc + 1) t.o.saR else advance t)

/-- JMP (43_control R171). -/
def execJmp (m : Modifier) (a b : InstrField) (s : State) : Host.Outcome State Fault Refusal :=
  runTurn ⟨.jmp, m, a, b⟩ jmpUnit s

/-- JMZ (43_control R172). -/
def execJmz (m : Modifier) (a b : InstrField) (s : State) : Host.Outcome State Fault Refusal :=
  runTurn ⟨.jmz, m, a, b⟩ jmzUnit s

/-- JMN (43_control R173). -/
def execJmn (m : Modifier) (a b : InstrField) (s : State) : Host.Outcome State Fault Refusal :=
  runTurn ⟨.jmn, m, a, b⟩ jmnUnit s

/-- DJN (43_control R174). -/
def execDjn (m : Modifier) (a b : InstrField) (s : State) : Host.Outcome State Fault Refusal :=
  runTurn ⟨.djn, m, a, b⟩ djnUnit s

/-- SPL (43_control R175). -/
def execSpl (m : Modifier) (a b : InstrField) (s : State) : Host.Outcome State Fault Refusal :=
  runTurn ⟨.spl, m, a, b⟩ splUnit s

end Sys2Proof.Machine
end

