-- ==== Sys2Proof/Machine/DatMov.lean ====
section
/-! DEFINITION. DAT and MOV (41_dat_mov). -/

namespace Sys2Proof.Machine

/-- DAT's execute phase: the process dies (41_dat_mov R140). -/
def datUnit (_t : Turn) (s : State) : State × TurnOut := (s, .death .datExecuted)

/-- MOV's execute phase: the whole record under I, else the selected field values (41_dat_mov R141, 40_operands R124). -/
def movUnit (t : Turn) (s : State) : State × TurnOut :=
  match t.ir.mod with
  | .i => (writeCell s t.o.daW t.o.src, advance t)
  | m => (writeValues s t.o.daW ((pairs m).map fun p => (p.2, valueOf t.o.src p.1)), advance t)

/-- DAT (41_dat_mov R140). -/
def execDat (m : Modifier) (a b : InstrField) (s : State) : Host.Outcome State Fault Refusal :=
  runTurn ⟨.dat, m, a, b⟩ datUnit s

/-- MOV (41_dat_mov R141). -/
def execMov (m : Modifier) (a b : InstrField) (s : State) : Host.Outcome State Fault Refusal :=
  runTurn ⟨.mov, m, a, b⟩ movUnit s

end Sys2Proof.Machine
end

