-- ==== Sys2Proof/Machine/Nop.lean ====
section
/-! DEFINITION. NOP (46_nop). -/

namespace Sys2Proof.Machine

/-- NOP's execute phase: no effect but the advance; its operands were resolved like any other's (46_nop R230). -/
def nopUnit (t : Turn) (s : State) : State × TurnOut := (s, advance t)

/-- NOP (46_nop R230). -/
def execNop (m : Modifier) (a b : InstrField) (s : State) : Host.Outcome State Fault Refusal :=
  runTurn ⟨.nop, m, a, b⟩ nopUnit s

end Sys2Proof.Machine
end

