-- ==== Sys2Proof/Machine/PSpace.lean ====
section
/-! DEFINITION. LDP and STP, the p-space unit (45_pspace). -/

namespace Sys2Proof.Machine

/-- LDP's execute phase: one field value of the target cell, from the warrior's own p-space (45_pspace R210, R211). -/
def ldpUnit (t : Turn) (s : State) : State × TurnOut :=
  (writeValue s t.o.daW (destLetter t.ir.mod)
    (modC s.cfg.coreSize (pRead s t.w (pspaceIndex t.ir t.o))), advance t)

/-- STP's execute phase: one field value of the source into the warrior's own p-space (45_pspace R210, R212). -/
def stpUnit (t : Turn) (s : State) : State × TurnOut :=
  (pWrite s t.w (pspaceIndex t.ir t.o) (valueOf t.o.src (sourceLetter t.ir.mod)), advance t)

/-- LDP (45_pspace R211). -/
def execLdp (m : Modifier) (a b : InstrField) (s : State) : Host.Outcome State Fault Refusal :=
  runTurn ⟨.ldp, m, a, b⟩ ldpUnit s

/-- STP (45_pspace R212). -/
def execStp (m : Modifier) (a b : InstrField) (s : State) : Host.Outcome State Fault Refusal :=
  runTurn ⟨.stp, m, a, b⟩ stpUnit s

end Sys2Proof.Machine
end

