-- ==== Sys2Proof/Machine/Dispatch.lean ====
section
/-! DEFINITION. One arm per constructor of Instr: the turn that runs it (40_operands R100). -/

namespace Sys2Proof.Machine

/-- One turn of the execution unit with `i` as the latched instruction: `ExecuteTurn` of 40_operands R100. -/
def exec (i : Instr) (s : State) : Host.Outcome State Fault Refusal :=
  match i with
  | .dat m a b => Sys2Proof.Machine.execDat m a b s
  | .mov m a b => Sys2Proof.Machine.execMov m a b s
  | .add m a b => Sys2Proof.Machine.execAdd m a b s
  | .sub m a b => Sys2Proof.Machine.execSub m a b s
  | .mul m a b => Sys2Proof.Machine.execMul m a b s
  | .div m a b => Sys2Proof.Machine.execDiv m a b s
  | .mod m a b => Sys2Proof.Machine.execMod m a b s
  | .jmp m a b => Sys2Proof.Machine.execJmp m a b s
  | .jmz m a b => Sys2Proof.Machine.execJmz m a b s
  | .jmn m a b => Sys2Proof.Machine.execJmn m a b s
  | .djn m a b => Sys2Proof.Machine.execDjn m a b s
  | .spl m a b => Sys2Proof.Machine.execSpl m a b s
  | .cmp m a b => Sys2Proof.Machine.execCmp m a b s
  | .sne m a b => Sys2Proof.Machine.execSne m a b s
  | .slt m a b => Sys2Proof.Machine.execSlt m a b s
  | .ldp m a b => Sys2Proof.Machine.execLdp m a b s
  | .stp m a b => Sys2Proof.Machine.execStp m a b s
  | .nop m a b => Sys2Proof.Machine.execNop m a b s
  | .seq m a b => Sys2Proof.Machine.execSeq m a b s

end Sys2Proof.Machine
end

