-- ==== Sys2Proof/Machine/Fetch.lean ====
section
/-! DEFINITION. Instruction fetch: the front process of the next Active warrior, and the cell at its counter. -/

namespace Sys2Proof.Machine

/-- The warrior whose turn it is and the instruction at its front process's counter, read whole and unwindowed from the
current core (40_operands R101, R102, 20_memory R64). -/
def fetch (s : State) : Option (Nat × Instr) :=
  match frontProcess s with
  | none => none
  | some (w, pc, _) => some (w, (readCell s pc).instr)

/-- Store the record of a packed word where the next turn fetches; a word that is no instruction stores nothing. -/
def layWord (s : State) (w : Nat) : State :=
  match frontProcess s, decodeRecord s.cfg.coreSize w with
  | some (_, pc, _), .ok r => writeCell s pc r
  | _, _ => s

end Sys2Proof.Machine
end

