-- ==== Sys2Proof/Machine/Step.lean ====
section
/-! DEFINITION. One scheduler turn (60_exceptions R262), the machine's one step, and where the host lays a word for it. -/

namespace Sys2Proof.Machine

/-- `step(M)` (70_reset R325): one scheduler turn while the match is Running, the identity once it has Ended. The turn
begins its pass, fetches at the front process of the next Active warrior, runs the instruction, moves the cursor and
evaluates the end condition (60_exceptions R262). -/
def step (s : State) : Host.Outcome State Fault Refusal :=
  match s.status with
  | .ended _ => .next s
  | .running =>
    match fetch (beginPass s) with
    | none => .fault .noActiveProcess
    | some (w, i) =>
      match exec i (beginPass s) with
      | .next s' => .next (finishTurn s' w)
      | .fault r => .fault r
      | .refused r => .refused r

/-- `s` with the instruction of the packed word `w` in the cell the next turn fetches from. Every bit above `nbits` is
0. It stands for the host's load of a program; a word that decodes to no instruction is one that load refuses
(70_reset R306), and leaves `s` as it is (log entries 4 and 18). -/
def State.withFetchWord (s : State) (nbits w : Nat) : State := layWord s (w % 2 ^ nbits)

end Sys2Proof.Machine
end

