-- ==== Sys2Proof/Machine/Setup.lean ====
section
/-! DEFINITION. The host's setup of a match: validation, placement, load, match reset and round reset (70_reset_and_hazards). -/

namespace Sys2Proof.Machine

/-! ## What the host gives -/

/-- The configuration record as the host writes it, before validation (00_scope R7, 10_state R30): any integers. -/
structure ConfigInput where
  coreSize : Int
  readDistance : Int
  writeDistance : Int
  maxProcesses : Int
  pspaceSize : Int
  maxCycles : Int
  minSeparation : Int
deriving DecidableEq, Repr

/-- One instruction of a program image: the record with integer literals, any integers (30_encoding R77, R86), or a
packed word (30_encoding R75; DESIGN CHOICE: log entry 13). -/
inductive ImageInstr where
  | literal (op : Opcode) (m : Modifier) (aMode : Mode) (aValue : Int) (bMode : Mode) (bValue : Int)
  | packed (word : Nat)
deriving DecidableEq, Repr

/-- `ProgramImage` (00_scope R15). -/
structure ProgramImage where
  id : Nat
  instructions : List ImageInstr
deriving DecidableEq, Repr

/-- Why a configuration or a placement is refused (60_exceptions R247). -/
inductive ConfigError where
  | pspaceSizeZero
  | coreTooSmall
  | maxProcessesZero
  | coreSizeZero
  | badDistance
  | noWarriors
  | emptyProgram
  | duplicateId
  | badPlacement
  | badMaxCycles
deriving DecidableEq, Repr

/-- The codes of 60_exceptions R247. -/
def ConfigError.code : ConfigError → Nat
  | .pspaceSizeZero => 1
  | .coreTooSmall => 2
  | .maxProcessesZero => 3
  | .coreSizeZero => 4
  | .badDistance => 5
  | .noWarriors => 6
  | .emptyProgram => 7
  | .duplicateId => 8
  | .badPlacement => 9
  | .badMaxCycles => 10

/-- Why a setup produces no match state (70_reset R300). -/
inductive SetupError where
  | validation (e : ValidationError)
  | config (e : ConfigError)
deriving DecidableEq, Repr

/-! ## Validation (70_reset R305, R306) -/

/-- The record that an image's instruction constructs: literals are reduced modulo C (30_encoding R77), a packed word
is decoded; an invalid one gives its cause (70_reset R306). -/
def readImageInstr (C : Nat) : ImageInstr → Except ValidationError Record
  | .literal op m aMode aValue bMode bValue =>
    if (legalModifiers op).contains m then
      .ok { op := op, mod := m, a := { mode := aMode, value := modC C aValue },
            b := { mode := bMode, value := modC C bValue } }
    else .error .badCombination
  | .packed w => decodeRecord C w

/-- The cause for which an image's instruction is refused, if it is. -/
def imageInstrError (C : Nat) (i : ImageInstr) : Option ValidationError :=
  match readImageInstr C i with
  | .ok _ => none
  | .error e => some e

/-- `ValidateImages`: the first invalid instruction, warriors in order and each program in order
(70_reset R306; the order among several is a DESIGN CHOICE: log entry 13). It runs before the core size is checked: a
given core size of 0 or less is taken as 0 here, for which R77 and R76 define nothing (DESIGN CHOICE: log entry 20). -/
def validateImages (C : Nat) (images : List ProgramImage) : Option ValidationError :=
  (images.flatMap (·.instructions)).findSome? (imageInstrError C)

/-- `max(len_w, MINSEP)`: the cells that a warrior keeps from its start to the next start (70_reset R305, R311). -/
def separation (minSep : Int) (len : Nat) : Int := max (len : Int) minSep

/-- The length of each program. -/
def lengths (images : List ProgramImage) : List Nat := images.map (·.instructions.length)

/-- The CoreTooSmall condition of 70_reset R305. -/
def coreTooSmall (images : List ProgramImage) (ci : ConfigInput) : Bool :=
  match lengths images with
  | [] => false
  | [len] => decide (ci.coreSize < len)
  | lens => decide (ci.coreSize < (lens.map (separation ci.minSeparation)).sum)

/-- `ValidateConfig`: the causes of 70_reset R305 in the order of its table, the first that holds. -/
def validateConfig (images : List ProgramImage) (ci : ConfigInput) : Option ConfigError :=
  if ci.pspaceSize ≤ 0 then some .pspaceSizeZero
  else if coreTooSmall images ci then some .coreTooSmall
  else if ci.maxProcesses ≤ 0 then some .maxProcessesZero
  else if ci.coreSize ≤ 0 then some .coreSizeZero
  else if ci.readDistance < 2 ∨ ci.coreSize < ci.readDistance ∨
      ci.writeDistance < 2 ∨ ci.coreSize < ci.writeDistance then some .badDistance
  else if images = [] then some .noWarriors
  else if (lengths images).any (fun len => decide (len = 0)) then some .emptyProgram
  else if ¬ (images.map (·.id)).Nodup then some .duplicateId
  else if ci.maxCycles < 0 then some .badMaxCycles
  else none

/-- The configuration of a match from a record that `validateConfig` passed: every field but MINSEP is then a natural
number. -/
def ConfigInput.cfg (ci : ConfigInput) : Cfg :=
  { coreSize := ci.coreSize.toNat
    readDistance := ci.readDistance.toNat
    writeDistance := ci.writeDistance.toNat
    maxProcesses := ci.maxProcesses.toNat
    pspaceSize := ci.pspaceSize.toNat
    maxCycles := ci.maxCycles.toNat
    minSeparation := ci.minSeparation }

/-- The configuration of a match as `validateConfig` reads one. -/
def configInput (c : Cfg) : ConfigInput :=
  { coreSize := c.coreSize
    readDistance := c.readDistance
    writeDistance := c.writeDistance
    maxProcesses := c.maxProcesses
    pspaceSize := c.pspaceSize
    maxCycles := c.maxCycles
    minSeparation := c.minSeparation }

/-! ## Placement (70_reset R311) -/

/-- One start keeps its separation before another, measured round the ring: `(s_j - s_i) mod C >= max(len_i, MINSEP)`. -/
def separated (C : Nat) (minSep : Int) (x y : Nat × Nat) : Bool :=
  decide (separation minSep x.2 ≤ (modC C ((y.1 : Int) - x.1) : Int))

/-- The placement constraint over (load address, program length) pairs: every address in `[0, C)`, and every two
separated both ways (70_reset R311). -/
def placementOk (C : Nat) (minSep : Int) (ps : List (Nat × Nat)) : Bool :=
  ps.all (fun p => decide (p.1 < C)) &&
    decide (ps.Pairwise fun x y => separated C minSep x y = true ∧ separated C minSep y x = true)

/-- The load addresses that the host's `place` chose obey 70_reset R311: one for each program. `place` itself is the
host's (00_scope R6), so that its answer is the model's argument (DESIGN CHOICE: log entry 12). -/
def validPlacement (C : Nat) (minSep : Int) (images : List ProgramImage) (places : List Nat) : Bool :=
  decide (places.length = images.length) && placementOk C minSep (places.zip (lengths images))

/-- `place_packed` from a start address on: each start is the last one plus its separation (70_reset R311). -/
def placeFrom (minSep : Int) : Nat → List Nat → List Nat
  | _, [] => []
  | s, len :: lens => s :: placeFrom minSep (s + (separation minSep len).toNat) lens

/-- `place_packed`, the placement that 70_reset R311 names for tests and as the model's default. -/
def placePacked (minSep : Int) (images : List ProgramImage) : List Nat := placeFrom minSep 0 (lengths images)

/-! ## Load (70_reset R307) -/

/-- `canon(instructions)`: the records of an image. An instruction that validation refuses has none; load is reached
only when every one is valid. -/
def imageRecords (C : Nat) (im : ProgramImage) : List Record :=
  im.instructions.filterMap fun i => (readImageInstr C i).toOption

/-- `Load`: one cell per instruction, in program order, wrapping past C - 1 (70_reset R307). -/
def loadProgram (C : Nat) : CoreMem → Nat → List Record → CoreMem
  | core, _, [] => core
  | core, s, r :: rs => loadProgram C (memWrite C core s r) (s + 1) rs

/-- The loads of all warriors into a core, in index order (70_reset R300). -/
def loadAll (C : Nat) : CoreMem → List (ProgramImage × Nat) → CoreMem
  | core, [] => core
  | core, (im, s) :: rest => loadAll C (loadProgram C core s (imageRecords C im)) rest

/-! ## Match reset and round reset -/

/-- A match reset (70_reset R300): validate the images, then the configuration, then the placement; fill the core,
load, one process per warrior at its load address, p-space 0, counters 0, N0 = N; then the end test. The core fill is
the empty list: an unlisted cell reads as `DAT.F #0, #0` (70_reset R301). With core_size 0 or less a packed word is
refused as a ValidationError before any ConfigError is looked for (DESIGN CHOICE: log entry 20). -/
def setup (images : List ProgramImage) (ci : ConfigInput) (places : List Nat) : Except SetupError State :=
  match validateImages ci.coreSize.toNat images with
  | some e => .error (.validation e)
  | none =>
    match validateConfig images ci with
    | some e => .error (.config e)
    | none =>
      if validPlacement ci.cfg.coreSize ci.minSeparation images places then
        .ok (evaluateEnd
          { cfg := ci.cfg
            core := loadAll ci.cfg.coreSize [] (images.zip places)
            warriors := (images.zip places).map fun p => { id := p.1.id, queue := [p.2], pspace := [] }
            cycleCount := 0
            turnPtr := 0
            n0 := images.length
            status := .running })
      else .error (.config .badPlacement)

/-- A round reset (70_reset R303, R323): core refilled and reloaded, one process per warrior again, counters 0, the end
test; cfg, ids, N0 and every p-space are kept. The images are no state (10_state R39), so the host gives them again, the
ones it gave to setup, with the round's load addresses. R303 validates nothing new and has no images to refuse; here the
images given again pass setup's own checks, against the match's configuration, with setup's causes: an empty program is
EmptyProgram, a lone program longer than C is CoreTooSmall, and images that are not one for each warrior are
BadPlacement (DESIGN CHOICE, unsafe: log entry 6). -/
def newRound (images : List ProgramImage) (places : List Nat) (s : State) : Except SetupError State :=
  match validateImages s.cfg.coreSize images with
  | some e => .error (.validation e)
  | none =>
    match validateConfig images (configInput s.cfg) with
    | some e => .error (.config e)
    | none =>
      if validPlacement s.cfg.coreSize s.cfg.minSeparation images places ∧ images.length = s.warriors.length then
        .ok (evaluateEnd
          { s with
            core := loadAll s.cfg.coreSize [] (images.zip places)
            warriors := (s.warriors.zip places).map fun p => { p.1 with queue := [p.2] }
            cycleCount := 0
            turnPtr := 0 })
      else .error (.config .badPlacement)

end Sys2Proof.Machine
end

