-- ==== Sys2Proof/Machine/Match.lean ====
section
/-! DEFINITION. The host's drive of a match: simulate_match, the match result, observation and the turn events. -/

namespace Sys2Proof.Machine

/-- `MatchResult` (70_reset R322). -/
structure MatchResult where
  outcome : MatchOutcome
  cycleCount : Nat
deriving DecidableEq, Repr

/-- The result of a match that has ended (70_reset R322). -/
def matchResult (s : State) : Option MatchResult :=
  match s.status with
  | .ended o => some { outcome := o, cycleCount := s.cycleCount }
  | .running => none

/-- `observe(M)`: the host reads the whole state at a turn boundary (70_reset R326, 20_memory R67). -/
def observe (s : State) : State := s

/-- At most `k` scheduler turns while the match is Running (70_reset R321); `none` if a turn stops, which no legal match
does (60_exceptions R245). -/
def runMatch : Nat → State → Option State
  | 0, s => some s
  | k + 1, s =>
    match s.status with
    | .ended _ => some s
    | .running =>
      match step s with
      | .next s' => runMatch k s'
      | .fault _ => none
      | .refused _ => none

/-- The most turns a match can take, `N * MAXC` (70_reset R328). -/
def turnBound (s : State) : Nat := s.warriors.length * s.cfg.maxCycles

/-- `simulate_match(images, cfg)` (70_reset R321), with the load addresses that `place` chose. The loop is bounded by
the number of turns of 70_reset R328 (DEDUCED: log entry 14); the inner `none` would be a match that has not ended. -/
def simulateMatch (images : List ProgramImage) (ci : ConfigInput) (places : List Nat) :
    Except SetupError (Option MatchResult) :=
  match setup images ci places with
  | .error e => .error e
  | .ok s => .ok ((runMatch (turnBound s) s).bind matchResult)

/-- The execute phase of each opcode, as its meaning runs it. -/
def executeUnit : Opcode → Turn → State → State × TurnOut
  | .dat => datUnit
  | .mov => movUnit
  | .add => addUnit
  | .sub => subUnit
  | .mul => mulUnit
  | .div => divUnit
  | .mod => modUnit
  | .jmp => jmpUnit
  | .jmz => jmzUnit
  | .jmn => jmnUnit
  | .djn => djnUnit
  | .spl => splUnit
  | .cmp => cmpUnit
  | .sne => sneUnit
  | .slt => sltUnit
  | .ldp => ldpUnit
  | .stp => stpUnit
  | .nop => nopUnit

/-- `TurnEvent` (40_operands R129). -/
structure TurnEvent where
  cycleCount : Nat
  w : Nat
  pc : Nat
  ir : Record
  out : TurnOut
deriving DecidableEq, Repr

/-- The record that the turn of `step s` yields, if there is such a turn (40_operands R129). It changes no state, so
that it is a function of the state before the turn (DESIGN CHOICE, safe: log entry 15). -/
def turnEvent (s : State) : Option TurnEvent :=
  match s.status with
  | .ended _ => none
  | .running =>
    match frontProcess (beginPass s) with
    | none => none
    | some (_, pc, _) =>
      let ir := readCell s pc
      match openTurn ir (beginPass s) with
      | none => none
      | some (t, s1) =>
        some { cycleCount := (beginPass s).cycleCount, w := t.w, pc := t.pc, ir := ir,
               out := (executeUnit ir.op t s1).2.reduced s.cfg.coreSize }

end Sys2Proof.Machine
end

