-- ==== Sys2Proof/WellFormed.lean ====
section
/-! DEFINITION. Which instructions are well-formed for a core of C cells: a legal modifier, and both field values canonical. -/

namespace Sys2Proof

/-- The instruction's modifier is one its opcode may carry (30_encoding R78). -/
abbrev Instr.ModifierLegal (i : Instr) : Prop := i.record.mod ∈ legalModifiers i.record.op

/-- The A-field's value lies in `[0, C)` (10_state R26). -/
abbrev Instr.AValueCanonical (C : Nat) (i : Instr) : Prop := i.record.a.value < C

/-- The B-field's value lies in `[0, C)` (10_state R26). -/
abbrev Instr.BValueCanonical (C : Nat) (i : Instr) : Prop := i.record.b.value < C

/-- A structurally valid instruction of a core of `C` cells (10_state R26, 30_encoding R79). -/
abbrev Instr.WellFormed (C : Nat) (i : Instr) : Prop :=
  i.ModifierLegal ∧ i.AValueCanonical C ∧ i.BValueCanonical C

end Sys2Proof
end

