-- ==== Sys2Proof/Safety.lean ====
section
/-! DEFINITION. The terms the claims use: the invariant of a legal match, and what a turn leaves as it was. -/

namespace Sys2Proof.Machine

/-! ## The invariant of a legal match -/

/-- The legal values of the configuration record (10_state R30). -/
abbrev CfgLegal (c : Cfg) : Prop :=
  1 ≤ c.coreSize ∧ 2 ≤ c.readDistance ∧ c.readDistance ≤ c.coreSize ∧ 2 ≤ c.writeDistance ∧
    c.writeDistance ≤ c.coreSize ∧ 1 ≤ c.maxProcesses ∧ 1 ≤ c.pspaceSize

/-- The core is in canonical form, every listed address is a core address, and every cell holds a structurally valid
record with canonical values (10_state R24, R26). An unlisted cell holds the fill, which is valid in every core. -/
abbrev CoreOk (C : Nat) (core : CoreMem) : Prop :=
  sparseWf coreFill core = true ∧ ∀ e ∈ core, e.1 < C ∧ Record.check C e.2 = none

/-- A warrior's counters are core addresses, at most MAXP of them, and its p-space is in canonical form with indices
below P and values in `[0, C)` (10_state R21, R23, R27, R28). -/
abbrev WarriorOk (cfg : Cfg) (x : Warrior) : Prop :=
  (∀ p ∈ x.queue, p < cfg.coreSize) ∧ x.queue.length ≤ cfg.maxProcesses ∧
    sparseWf pspaceFill x.pspace = true ∧ ∀ e ∈ x.pspace, e.1 < cfg.pspaceSize ∧ e.2 < cfg.coreSize

/-- What every state of a legal match meets at a turn boundary. -/
structure Inv (s : State) : Prop where
  /-- 10_state R30. -/
  cfg_legal : CfgLegal s.cfg
  /-- 10_state R26. -/
  core_ok : CoreOk s.cfg.coreSize s.core
  /-- 10_state R21, R23, R28. -/
  warriors_ok : ∀ x ∈ s.warriors, WarriorOk s.cfg x
  /-- 10_state R41. -/
  n0_eq : s.n0 = s.warriors.length
  /-- 10_state R35. -/
  ids_distinct : (s.warriors.map (·.id)).Nodup
  /-- 10_state R32: `turn_ptr` in `[0, N)`. -/
  cursor_lt : s.turnPtr < s.warriors.length
  /-- 60_exceptions R258. -/
  cursor_live : s.turnPtr = 0 ∨ ∃ i, s.turnPtr ≤ i ∧ isActive s i = true
  /-- 10_state R29. -/
  cycle_le : s.cycleCount ≤ s.cfg.maxCycles
  /-- 60_exceptions R264: with two or more warriors at setup, at least one is left. -/
  survivor : 2 ≤ s.n0 → 1 ≤ activeCount s
  /-- 10_state R33: Ended exactly when the end condition holds, with its outcome. -/
  status_eq : s.status = statusOf s

/-! ## What setup may be given -/

/-- Every instruction of every image constructs a record for a core of `C` cells (70_reset R306). -/
def ImagesValid (C : Nat) (images : List ProgramImage) : Prop :=
  ∀ im ∈ images, ∀ i ∈ im.instructions, ∃ r, readImageInstr C i = .ok r

/-- The programs fit, the opposite of 70_reset R305's CoreTooSmall: one alone is at most `C` long; of two or more, the
sum of `max(len, MINSEP)` is at most `C`. -/
def ProgramsFit (C minSep : Int) (images : List ProgramImage) : Prop :=
  (∀ im, images = [im] → (im.instructions.length : Int) ≤ C) ∧
    (2 ≤ images.length → (images.map fun im => max (im.instructions.length : Int) minSep).sum ≤ C)

/-- 70_reset R311: one load address in `[0, C)` for each program, and `(s_j - s_i) mod C >= max(len_i, MINSEP)` for all
`i ≠ j`. -/
def PlacementRule (C minSep : Int) (images : List ProgramImage) (places : List Nat) : Prop :=
  places.length = images.length ∧ (∀ p ∈ places, (p : Int) < C) ∧
    ∀ (i j si sj : Nat) (im : ProgramImage), i ≠ j → images[i]? = some im → places[i]? = some si →
      places[j]? = some sj → max (im.instructions.length : Int) minSep ≤ ((sj : Int) - si) % C

/-- The causes for which setup refuses valid images, with their conditions, in the order in which they are looked for:
the table of 70_reset R305, then the placement (R300). That BadPlacement takes in a list of load addresses of the wrong
length, or with one outside `[0, C)`, is the model's choice (log entry 12). -/
def configCauses (images : List ProgramImage) (ci : ConfigInput) (places : List Nat) : List (ConfigError × Prop) :=
  [(.pspaceSizeZero, ci.pspaceSize ≤ 0),
   (.coreTooSmall, ¬ ProgramsFit ci.coreSize ci.minSeparation images),
   (.maxProcessesZero, ci.maxProcesses ≤ 0),
   (.coreSizeZero, ci.coreSize ≤ 0),
   (.badDistance, ¬ (2 ≤ ci.readDistance ∧ ci.readDistance ≤ ci.coreSize) ∨
      ¬ (2 ≤ ci.writeDistance ∧ ci.writeDistance ≤ ci.coreSize)),
   (.noWarriors, images = []),
   (.emptyProgram, ∃ im ∈ images, im.instructions = []),
   (.duplicateId, ¬ (images.map (·.id)).Nodup),
   (.badMaxCycles, ci.maxCycles < 0),
   (.badPlacement, ¬ PlacementRule ci.coreSize ci.minSeparation images places)]

/-- `e` is the first cause of the list whose condition holds. -/
def FirstCause (causes : List (ConfigError × Prop)) (e : ConfigError) : Prop :=
  ∃ earlier later c, causes = earlier ++ (e, c) :: later ∧ c ∧ ∀ x ∈ earlier, ¬ x.2

/-- What a reset leaves in core: every program in order from its load address, `DAT.F #0, #0` in every other cell
(70_reset R301, R307). -/
def CoreLoaded (images : List ProgramImage) (places : List Nat) (s : State) : Prop :=
  (∀ (w p k : Nat) (im : ProgramImage) (i : ImageInstr), images[w]? = some im → places[w]? = some p →
    im.instructions[k]? = some i → readImageInstr s.cfg.coreSize i = .ok (readCell s (p + k))) ∧
  ∀ x, x < s.cfg.coreSize →
    (∀ (w p k : Nat) (im : ProgramImage), images[w]? = some im → places[w]? = some p →
      k < im.instructions.length → (p + k) % s.cfg.coreSize ≠ x) → readCell s x = coreFill

/-! ## What a turn leaves as it was -/

/-- The address of the cell that a field's resolution changes, if its mode changes one (40_operands R107 to R110). -/
def sideEffectCell (C pc : Nat) (f : InstrField) : Option Nat :=
  (sideEffect f.mode).map fun _ => pointerCell C pc f

/-- Every core cell reads as before, but the ones that the two operands' resolution changes and `target`, the cell that
the instruction itself stores to, if it stores to one. -/
def CoreFrame (s s' : State) (pc : Nat) (ir : Record) (target : Option Nat) : Prop :=
  ∀ x, sideEffectCell s.cfg.coreSize pc ir.a ≠ some (x % s.cfg.coreSize) →
    sideEffectCell s.cfg.coreSize pc ir.b ≠ some (x % s.cfg.coreSize) →
    target ≠ some (x % s.cfg.coreSize) → readCell s' x = readCell s x

/-- The core after the turn is the core after both resolutions, but for `target`. -/
def CoreAfter (s' : State) (o : Operands) (target : Option Nat) : Prop :=
  ∀ x, target ≠ some (x % s'.cfg.coreSize) → readCell s' x = memRead s'.cfg.coreSize o.core x

/-- The bookkeeping that no instruction touches (10_state R31): configuration, pass counter, cursor, N0, status. -/
structure SameBookkeeping (s s' : State) : Prop where
  cfg : s'.cfg = s.cfg
  cycleCount : s'.cycleCount = s.cycleCount
  turnPtr : s'.turnPtr = s.turnPtr
  n0 : s'.n0 = s.n0
  status : s'.status = s.status

/-- Of the warriors, only `w` changed, and of `w` only its queue, which is now `q`: every id, every p-space and every
other queue is as it was. -/
def OnlyQueue (s s' : State) (w : Nat) (q : List Nat) : Prop :=
  s'.warriors = s.warriors.modify w fun x => { x with queue := q }

/-- The whole frame of a turn of warrior `w` at `pc` with `ir` latched that stores to `target` and leaves the queue
`q`. -/
structure TurnFrame (s s' : State) (w pc : Nat) (ir : Record) (target : Option Nat) (q : List Nat) : Prop where
  bookkeeping : SameBookkeeping s s'
  warriors : OnlyQueue s s' w q
  core_before : CoreFrame s s' pc ir target
  core_after : CoreAfter s' (prepare s.cfg pc ir s.core) target

/-- A cell differs from what it was at most in the values of the fields `fs` (40_operands R124). -/
structure SameButValues (r r' : Record) (fs : List Sel) : Prop where
  op : r'.op = r.op
  mod : r'.mod = r.mod
  aMode : r'.a.mode = r.a.mode
  bMode : r'.b.mode = r.b.mode
  other : ∀ f, f ∉ fs → valueOf r' f = valueOf r f

/-- The operands of the instruction `ir` latched at `pc` in `s` (40_operands R100). -/
abbrev operandsOf (s : State) (pc : Nat) (ir : Record) : Operands := prepare s.cfg pc ir s.core

/-- `k` steps of the machine, for claims about runs. -/
abbrev runSteps (k : Nat) (s : State) : Host.Outcome State Fault Refusal := Sys2Proof.core.run k s

end Sys2Proof.Machine
end

