-- ==== Sys2Proof/Certificates/Slice0/Obligations.lean ====
section
/-! DEFINITION. The statements for the provers: encoding, operands, every instruction, the scheduler, setup, whole matches. -/

open Sys2Proof Sys2Proof.Machine

/-! ## Encoding -/

/-- For a core of any size and every well-formed instruction of every family, decoding its packed word gives it back,
with every operand at every value its encoding admits; SEQ comes back as CMP. The packed word is the spec's own
(92_eei_decisions D2: "The packed word of 14 + 2W bits"). -/
def Obligations.DecodeOfEncodeGivesTheInstruction : Prop :=
  ∀ (C : Nat) (i : Instr), i.WellFormed C → decode C (encode C i) = .ok i.canonical

/-- Whatever word decodes is the packed word of the record it decodes to, which is valid: no bit of a valid word is
dropped (92_eei_decisions D2). -/
def Obligations.EncodeOfDecodeGivesTheWord : Prop :=
  ∀ (C w : Nat) (r : Record), decodeRecord C w = .ok r → encodeRecord C r = w ∧ r.check C = none

/-- The decoder tests the opcode code, the modifier code, the combination and the values in this order, reports the
first failure, and answers a record when none fails (92_eei_decisions D2, D37, the spec's own choices). The first clause
also takes in numbers of more than 14 + 2W bits, which are no words of the hardware: that they are refused as badOpcode
is the model's choice (log entry 11). -/
def Obligations.DecoderReportsTheFirstFailure : Prop :=
  ∀ C w : Nat,
    let W := valueWidth C
    (18 ≤ w / 2 ^ (2 * W + 9) → decodeRecord C w = .error .badOpcode) ∧
    (w / 2 ^ (2 * W + 9) < 18 → bitField w (2 * W + 6) 3 = 7 → decodeRecord C w = .error .badModifier) ∧
    ∀ (op : Opcode) (m : Modifier), w / 2 ^ (2 * W + 9) = op.code → bitField w (2 * W + 6) 3 = m.code →
      (m ∉ legalModifiers op → decodeRecord C w = .error .badCombination) ∧
      (m ∈ legalModifiers op → (C ≤ bitField w (W + 3) W ∨ C ≤ bitField w 0 W) →
        decodeRecord C w = .error .badValue) ∧
      (m ∈ legalModifiers op → bitField w (W + 3) W < C → bitField w 0 W < C →
        ∃ r, decodeRecord C w = .ok r ∧ r.op = op ∧ r.mod = m ∧ r.a.value = bitField w (W + 3) W ∧
          r.b.value = bitField w 0 W ∧ r.a.mode.code = bitField w (2 * W + 3) 3 ∧
          r.b.mode.code = bitField w W 3)

/-- Words of 95_test_vectors C1 decode to the instructions it gives them, one of each family (C = 8000). A sanity
statement over the spec's own encoding (92_eei_decisions D2 to D6). -/
def Obligations.SpecWordsDecode : Prop :=
  decode 8000 0x0E20002001 = .ok (.mov .i ⟨.direct, 0⟩ ⟨.direct, 1⟩) ∧
  decode 8000 0x1200042003 = .ok (.add .ab ⟨.immediate, 4⟩ ⟨.direct, 3⟩) ∧
  decode 8000 0x383F3E2000 = .ok (.jmp .a ⟨.direct, 7998⟩ ⟨.direct, 0⟩) ∧
  decode 8000 0x6620012002 = .ok (.cmp .i ⟨.direct, 1⟩ ⟨.direct, 2⟩) ∧
  decode 8000 0x82002A0007 = .ok (.stp .ab ⟨.immediate, 42⟩ ⟨.immediate, 7⟩) ∧
  decode 8000 0x8C20002000 = .ok (.nop .f ⟨.direct, 0⟩ ⟨.direct, 0⟩)

/-! ## Addresses and operands -/

/-- R104: a Direct field resolves to `pc + value` modulo the core size and changes nothing; the rule's example. -/
def Obligations.DirectResolvesToCounterPlusValue : Prop :=
  (∀ (C pc v : Nat) (core : CoreMem), resolve C pc ⟨.direct, v⟩ core = ((pc + v) % C, core)) ∧
    ∀ core : CoreMem, (resolve 8000 7990 ⟨.direct, 15⟩ core).1 = 5

/-- R105 and R106: an indirect field resolves to its pointer cell plus that cell's A-value (B-value), modulo the core
size, and changes nothing. -/
def Obligations.IndirectResolvesThroughThePointerCell : Prop :=
  ∀ (C pc v : Nat) (core : CoreMem) (mode : Mode) (sel : Sel),
    (mode, sel) = (.aIndirect, .a) ∨ (mode, sel) = (.bIndirect, .b) →
      resolve C pc ⟨mode, v⟩ core =
        (((pc + v) % C + valueOf (memRead C core ((pc + v) % C)) sel) % C, core)

/-- R107 and R108: a predecrement field decrements its field of the pointer cell in place, modulo the core size, and
indirects through the decremented value; a value of 0 becomes C - 1 and the address is one below the pointer. Every
other part of that cell, and every other cell, stays. The premise is the memory's canonical form. -/
def Obligations.PredecrementIndirectsThroughTheDecrementedValue : Prop :=
  ∀ (C pc v : Nat) (core : CoreMem) (mode : Mode) (sel : Sel), 0 < C → sparseWf coreFill core = true →
    (mode, sel) = (.aPredec, .a) ∨ (mode, sel) = (.bPredec, .b) →
      let ptr := (pc + v) % C
      let old := valueOf (memRead C core ptr) sel
      let res := resolve C pc ⟨mode, v⟩ core
      valueOf (memRead C res.2 ptr) sel = modC C ((old : Int) - 1) ∧
        res.1 = (ptr + valueOf (memRead C res.2 ptr) sel) % C ∧
        (old = 0 → valueOf (memRead C res.2 ptr) sel = C - 1 ∧ res.1 = modC C ((ptr : Int) - 1)) ∧
        SameButValues (memRead C core ptr) (memRead C res.2 ptr) [sel] ∧
        ∀ x, x % C ≠ ptr → memRead C res.2 x = memRead C core x

/-- R109 and R110: a postincrement field indirects through the value before the increment, and the field of the pointer
cell is incremented in place, modulo the core size: C - 1 becomes 0. Every other part of that cell, and every other
cell, stays. The premise is the memory's canonical form. -/
def Obligations.PostincrementIndirectsThroughTheOldValue : Prop :=
  ∀ (C pc v : Nat) (core : CoreMem) (mode : Mode) (sel : Sel), 0 < C → sparseWf coreFill core = true →
    (mode, sel) = (.aPostinc, .a) ∨ (mode, sel) = (.bPostinc, .b) →
      let ptr := (pc + v) % C
      let old := valueOf (memRead C core ptr) sel
      let res := resolve C pc ⟨mode, v⟩ core
      res.1 = (ptr + old) % C ∧
        valueOf (memRead C res.2 ptr) sel = (old + 1) % C ∧
        (old = C - 1 → valueOf (memRead C res.2 ptr) sel = 0) ∧
        SameButValues (memRead C core ptr) (memRead C res.2 ptr) [sel] ∧
        ∀ x, x % C ≠ ptr → memRead C res.2 x = memRead C core x

/-- Where both operands predecrement one field of one cell, the source's decrement is seen by the destination's
resolution and not the other way: the source address takes the value less 1, the destination address the value less
2, and the field is left at the value less 2 (40_operands, "Ordering and scope of resolution"; 95_test_vectors A-6). -/
def Obligations.SourceDecrementIsSeenByTheDestination : Prop :=
  ∀ (cfg : Cfg) (pc : Nat) (ir : Record) (core : CoreMem) (sel : Sel), 0 < cfg.coreSize →
    sparseWf coreFill core = true →
    (ir.a.mode = .aPredec ∧ ir.b.mode = .aPredec ∧ sel = .a ∨ ir.a.mode = .bPredec ∧ ir.b.mode = .bPredec ∧ sel = .b) →
    ir.a.value = ir.b.value →
      let ptr := (pc + ir.a.value) % cfg.coreSize
      let old : Int := valueOf (memRead cfg.coreSize core ptr) sel
      let o := prepare cfg pc ir core
      o.sa = modC cfg.coreSize (ptr + (old - 1)) ∧ o.da = modC cfg.coreSize (ptr + (old - 2)) ∧
        valueOf (memRead cfg.coreSize o.core ptr) sel = modC cfg.coreSize (old - 2)

/-- The window: the offset of an address is signed, at least -C/2 and below C/2; an address inside `[pc - h, pc + h)` is
kept, one outside goes to the nearer edge; with the distance at C every address is kept; the counter's own cell is
always kept (the spec's own choices, 92_eei_decisions D14). -/
def Obligations.WindowClampsToTheNearerEdge : Prop :=
  ∀ C pc a d : Nat, 0 < C → 2 ≤ d → d ≤ C →
    let h : Int := ((d / 2 : Nat) : Int)
    let off := signedOffset C pc a
    (-(C : Int) ≤ 2 * off ∧ 2 * off < C ∧ modC C (pc + off) = a % C) ∧
    (d = C → win C pc a d = a % C) ∧
    (d < C → -h ≤ off → off < h → win C pc a d = a % C) ∧
    (d < C → off < -h → win C pc a d = modC C (pc - h)) ∧
    (d < C → h ≤ off → win C pc a d = modC C (pc + h - 1)) ∧
    win C pc pc d = pc % C

/-- The A-operand is resolved completely, in the core as the turn finds it, and the B-operand after it, in the core that
the A-operand's side effect left, whatever their modes (40_operands "Ordering and scope of resolution"). The snapshots S
and D are the latched instruction for an Immediate operand, else the windowed cell as the core stands after both
resolutions; an Immediate operand's address is the counter's own; the write target is the destination through the write
window (the spec's own choices, 92_eei_decisions D11, D12, D15). -/
def Obligations.SnapshotsAreReadAfterBothResolutions : Prop :=
  ∀ (cfg : Cfg) (pc : Nat) (ir : Record) (core : CoreMem),
    let o := prepare cfg pc ir core
    let afterA := (resolve cfg.coreSize pc ir.a core).2
    o.sa = (resolve cfg.coreSize pc ir.a core).1 ∧
    o.da = (resolve cfg.coreSize pc ir.b afterA).1 ∧
    o.core = (resolve cfg.coreSize pc ir.b afterA).2 ∧
    (ir.a.mode = .immediate → o.src = ir ∧ o.sa = pc) ∧
    (ir.b.mode = .immediate → o.dst = ir ∧ o.da = pc) ∧
    (ir.a.mode ≠ .immediate → o.src = memRead cfg.coreSize o.core o.saR) ∧
    (ir.b.mode ≠ .immediate → o.dst = memRead cfg.coreSize o.core o.daR) ∧
    o.saR = win cfg.coreSize pc o.sa cfg.readDistance ∧
    o.daR = win cfg.coreSize pc o.da cfg.readDistance ∧
    o.daW = win cfg.coreSize pc o.da cfg.writeDistance

/-- Both resolutions together change field values only, and only in the pointer cells of the operands whose mode has a
side effect. The premise is the memory's canonical form. -/
def Obligations.ResolutionChangesPointerValuesOnly : Prop :=
  ∀ (cfg : Cfg) (pc : Nat) (ir : Record) (core : CoreMem) (x : Nat), sparseWf coreFill core = true →
    let o := prepare cfg pc ir core
    SameButValues (memRead cfg.coreSize core x) (memRead cfg.coreSize o.core x) [.a, .b] ∧
    (sideEffectCell cfg.coreSize pc ir.a ≠ some (x % cfg.coreSize) →
      sideEffectCell cfg.coreSize pc ir.b ≠ some (x % cfg.coreSize) →
        memRead cfg.coreSize o.core x = memRead cfg.coreSize core x)

/-! ## The instructions

Each statement holds for every modifier, mode and value a well-formed instruction may carry, in every state in which some
warrior's process is next (`frontProcess`), and concludes that `exec` answers a next state; `TurnFrame` is the frame: what
the operands' resolution changes, the cell stored to, the warrior's own queue, and nothing else. `operandsOf` computes
the operands with the function the meaning uses, from the state the turn begins in. -/

/-- DAT ends its process, always: nothing is enqueued, the other processes keep their order, the side effects of its
operands stay, nothing else is written, and the warrior is Active after it exactly when it had another process
(41_dat_mov, 60_exceptions; that DAT resolves its operands is the spec's own choice, 92_eei_decisions D13). -/
def Obligations.DatEndsItsProcess : Prop :=
  ∀ (s : State) (w pc : Nat) (rest : List Nat) (m : Modifier) (a b : InstrField),
    frontProcess s = some (w, pc, rest) → (Instr.dat m a b).WellFormed s.cfg.coreSize →
      ∃ s', exec (.dat m a b) s = .next s' ∧ TurnFrame s s' w pc ⟨.dat, m, a, b⟩ none rest ∧
        (isActive s' w = true ↔ rest ≠ [])

/-- MOV.I copies the whole source record into the destination cell (41_dat_mov; 92_eei_decisions D11, D16). -/
def Obligations.MovWholeCopiesTheRecord : Prop :=
  ∀ (s : State) (w pc : Nat) (rest : List Nat) (a b : InstrField),
    frontProcess s = some (w, pc, rest) → (Instr.mov .i a b).WellFormed s.cfg.coreSize →
    sparseWf coreFill s.core = true →
      let ir : Record := ⟨.mov, .i, a, b⟩
      let o := operandsOf s pc ir
      ∃ s', exec (.mov .i a b) s = .next s' ∧
        TurnFrame s s' w pc ir (some o.daW) (rest ++ [(pc + 1) % s.cfg.coreSize]) ∧
        readCell s' o.daW = o.src

/-- MOV with another modifier copies the selected field values and nothing more of the destination cell
(41_dat_mov; 92_eei_decisions D11, D16). -/
def Obligations.MovCopiesTheSelectedValues : Prop :=
  ∀ (s : State) (w pc : Nat) (rest : List Nat) (m : Modifier) (a b : InstrField), m ≠ .i →
    frontProcess s = some (w, pc, rest) → (Instr.mov m a b).WellFormed s.cfg.coreSize →
    sparseWf coreFill s.core = true →
      let ir : Record := ⟨.mov, m, a, b⟩
      let o := operandsOf s pc ir
      ∃ s', exec (.mov m a b) s = .next s' ∧
        TurnFrame s s' w pc ir (some o.daW) (rest ++ [(pc + 1) % s.cfg.coreSize]) ∧
        (∀ p ∈ pairs m, valueOf (readCell s' o.daW) p.2 = valueOf o.src p.1) ∧
        SameButValues (memRead s.cfg.coreSize o.core o.daW) (readCell s' o.daW) ((pairs m).map (·.2))

/-- ADD adds the source value to the destination value modulo the core size, for each selected pair, both computed from
the snapshots (42_arithmetic; 92_eei_decisions D12, D17, D18). -/
def Obligations.AddAddsModuloTheCoreSize : Prop :=
  ∀ (s : State) (w pc : Nat) (rest : List Nat) (m : Modifier) (a b : InstrField),
    frontProcess s = some (w, pc, rest) → (Instr.add m a b).WellFormed s.cfg.coreSize →
    sparseWf coreFill s.core = true →
      let ir : Record := ⟨.add, m, a, b⟩
      let o := operandsOf s pc ir
      ∃ s', exec (.add m a b) s = .next s' ∧
        TurnFrame s s' w pc ir (some o.daW) (rest ++ [(pc + 1) % s.cfg.coreSize]) ∧
        (∀ p ∈ pairs m, valueOf (readCell s' o.daW) p.2 = (valueOf o.dst p.2 + valueOf o.src p.1) % s.cfg.coreSize) ∧
        SameButValues (memRead s.cfg.coreSize o.core o.daW) (readCell s' o.daW) ((pairs m).map (·.2))

/-- SUB subtracts the source value from the destination value modulo the core size, for each selected pair
(42_arithmetic; 92_eei_decisions D12, D17, D18). -/
def Obligations.SubSubtractsModuloTheCoreSize : Prop :=
  ∀ (s : State) (w pc : Nat) (rest : List Nat) (m : Modifier) (a b : InstrField),
    frontProcess s = some (w, pc, rest) → (Instr.sub m a b).WellFormed s.cfg.coreSize →
    sparseWf coreFill s.core = true →
      let ir : Record := ⟨.sub, m, a, b⟩
      let o := operandsOf s pc ir
      ∃ s', exec (.sub m a b) s = .next s' ∧
        TurnFrame s s' w pc ir (some o.daW) (rest ++ [(pc + 1) % s.cfg.coreSize]) ∧
        (∀ p ∈ pairs m, valueOf (readCell s' o.daW) p.2 =
          modC s.cfg.coreSize ((valueOf o.dst p.2 : Int) - valueOf o.src p.1)) ∧
        SameButValues (memRead s.cfg.coreSize o.core o.daW) (readCell s' o.daW) ((pairs m).map (·.2))

/-- MUL multiplies the destination value by the source value modulo the core size, for each selected pair
(42_arithmetic; 92_eei_decisions D12, D17, D18). -/
def Obligations.MulMultipliesModuloTheCoreSize : Prop :=
  ∀ (s : State) (w pc : Nat) (rest : List Nat) (m : Modifier) (a b : InstrField),
    frontProcess s = some (w, pc, rest) → (Instr.mul m a b).WellFormed s.cfg.coreSize →
    sparseWf coreFill s.core = true →
      let ir : Record := ⟨.mul, m, a, b⟩
      let o := operandsOf s pc ir
      ∃ s', exec (.mul m a b) s = .next s' ∧
        TurnFrame s s' w pc ir (some o.daW) (rest ++ [(pc + 1) % s.cfg.coreSize]) ∧
        (∀ p ∈ pairs m, valueOf (readCell s' o.daW) p.2 = valueOf o.dst p.2 * valueOf o.src p.1 % s.cfg.coreSize) ∧
        SameButValues (memRead s.cfg.coreSize o.core o.daW) (readCell s' o.daW) ((pairs m).map (·.2))

/-- DIV with no zero divisor divides the destination value by the source value, floor and unsigned, for each selected
pair (42_arithmetic; 92_eei_decisions D12, D17, D18, D19). -/
def Obligations.DivDividesUnsigned : Prop :=
  ∀ (s : State) (w pc : Nat) (rest : List Nat) (m : Modifier) (a b : InstrField),
    frontProcess s = some (w, pc, rest) → (Instr.div m a b).WellFormed s.cfg.coreSize →
    sparseWf coreFill s.core = true →
      let ir : Record := ⟨.div, m, a, b⟩
      let o := operandsOf s pc ir
      (∀ p ∈ pairs m, valueOf o.src p.1 ≠ 0) →
      ∃ s', exec (.div m a b) s = .next s' ∧
        TurnFrame s s' w pc ir (some o.daW) (rest ++ [(pc + 1) % s.cfg.coreSize]) ∧
        (∀ p ∈ pairs m, valueOf (readCell s' o.daW) p.2 = valueOf o.dst p.2 / valueOf o.src p.1) ∧
        SameButValues (memRead s.cfg.coreSize o.core o.daW) (readCell s' o.daW) ((pairs m).map (·.2))

/-- MOD with no zero divisor leaves the unsigned remainder of the destination value by the source value, for each
selected pair (42_arithmetic; 92_eei_decisions D12, D17, D18, D19). -/
def Obligations.ModLeavesTheUnsignedRemainder : Prop :=
  ∀ (s : State) (w pc : Nat) (rest : List Nat) (m : Modifier) (a b : InstrField),
    frontProcess s = some (w, pc, rest) → (Instr.mod m a b).WellFormed s.cfg.coreSize →
    sparseWf coreFill s.core = true →
      let ir : Record := ⟨.mod, m, a, b⟩
      let o := operandsOf s pc ir
      (∀ p ∈ pairs m, valueOf o.src p.1 ≠ 0) →
      ∃ s', exec (.mod m a b) s = .next s' ∧
        TurnFrame s s' w pc ir (some o.daW) (rest ++ [(pc + 1) % s.cfg.coreSize]) ∧
        (∀ p ∈ pairs m, valueOf (readCell s' o.daW) p.2 = valueOf o.dst p.2 % valueOf o.src p.1) ∧
        SameButValues (memRead s.cfg.coreSize o.core o.daW) (readCell s' o.daW) ((pairs m).map (·.2))

/-- DIV and MOD with a zero divisor in a selected pair end their process: nothing is enqueued and the other processes
keep their order. A pair with a non-zero divisor has written its result first; a pair with a zero divisor writes nothing
(42_arithmetic, 60_exceptions; the partial write is the spec's own choice, 92_eei_decisions D20). -/
def Obligations.ZeroDivisorEndsTheProcess : Prop :=
  ∀ (s : State) (w pc : Nat) (rest : List Nat) (m : Modifier) (a b : InstrField) (op : Opcode) (i : Instr)
    (law : Nat → Nat → Nat),
    (op = .div ∧ i = .div m a b ∧ law = (· / ·)) ∨ (op = .mod ∧ i = .mod m a b ∧ law = (· % ·)) →
    frontProcess s = some (w, pc, rest) → i.WellFormed s.cfg.coreSize → sparseWf coreFill s.core = true →
      let ir : Record := ⟨op, m, a, b⟩
      let o := operandsOf s pc ir
      let written := (pairs m).filter fun p => decide (valueOf o.src p.1 ≠ 0)
      (∃ p ∈ pairs m, valueOf o.src p.1 = 0) →
      ∃ s', exec i s = .next s' ∧ TurnFrame s s' w pc ir (some o.daW) rest ∧
        (∀ p ∈ written, valueOf (readCell s' o.daW) p.2 = law (valueOf o.dst p.2) (valueOf o.src p.1)) ∧
        SameButValues (memRead s.cfg.coreSize o.core o.daW) (readCell s' o.daW) (written.map (·.2)) ∧
        (queueOf s' w).length + 1 = (queueOf s w).length

/-- JMP requeues its process at the A-operand's address through the read window and writes nothing of its own
(43_control; 92_eei_decisions D15). -/
def Obligations.JmpGoesToTheSourceAddress : Prop :=
  ∀ (s : State) (w pc : Nat) (rest : List Nat) (m : Modifier) (a b : InstrField),
    frontProcess s = some (w, pc, rest) → (Instr.jmp m a b).WellFormed s.cfg.coreSize →
      let ir : Record := ⟨.jmp, m, a, b⟩
      ∃ s', exec (.jmp m a b) s = .next s' ∧
        TurnFrame s s' w pc ir none (rest ++ [(operandsOf s pc ir).saR])

/-- JMZ jumps if every selected field of the destination snapshot is zero, else goes to the next cell
(43_control; 92_eei_decisions D17). -/
def Obligations.JmzJumpsIfAllZero : Prop :=
  ∀ (s : State) (w pc : Nat) (rest : List Nat) (m : Modifier) (a b : InstrField),
    frontProcess s = some (w, pc, rest) → (Instr.jmz m a b).WellFormed s.cfg.coreSize →
      let ir : Record := ⟨.jmz, m, a, b⟩
      let o := operandsOf s pc ir
      ∃ s', exec (.jmz m a b) s = .next s' ∧
        TurnFrame s s' w pc ir none
          (rest ++ [if ∀ f ∈ tfields m, valueOf o.dst f = 0 then o.saR else (pc + 1) % s.cfg.coreSize])

/-- JMN jumps if some selected field of the destination snapshot is not zero, else goes to the next cell
(43_control; 92_eei_decisions D17). -/
def Obligations.JmnJumpsIfAnyNonzero : Prop :=
  ∀ (s : State) (w pc : Nat) (rest : List Nat) (m : Modifier) (a b : InstrField),
    frontProcess s = some (w, pc, rest) → (Instr.jmn m a b).WellFormed s.cfg.coreSize →
      let ir : Record := ⟨.jmn, m, a, b⟩
      let o := operandsOf s pc ir
      ∃ s', exec (.jmn m a b) s = .next s' ∧
        TurnFrame s s' w pc ir none
          (rest ++ [if ∃ f ∈ tfields m, valueOf o.dst f ≠ 0 then o.saR else (pc + 1) % s.cfg.coreSize])

/-- DJN decrements the selected fields of the destination cell modulo the core size, as computed from the destination
snapshot, and jumps if some decremented value is not zero (43_control; 92_eei_decisions D17, D22). -/
def Obligations.DjnDecrementsThenJumpsIfAnyNonzero : Prop :=
  ∀ (s : State) (w pc : Nat) (rest : List Nat) (m : Modifier) (a b : InstrField),
    frontProcess s = some (w, pc, rest) → (Instr.djn m a b).WellFormed s.cfg.coreSize →
    sparseWf coreFill s.core = true →
      let ir : Record := ⟨.djn, m, a, b⟩
      let o := operandsOf s pc ir
      let dec : Sel → Nat := fun f => modC s.cfg.coreSize ((valueOf o.dst f : Int) - 1)
      ∃ s', exec (.djn m a b) s = .next s' ∧
        TurnFrame s s' w pc ir (some o.daW)
          (rest ++ [if ∃ f ∈ tfields m, dec f ≠ 0 then o.saR else (pc + 1) % s.cfg.coreSize]) ∧
        (∀ f ∈ tfields m, valueOf (readCell s' o.daW) f = dec f) ∧
        SameButValues (memRead s.cfg.coreSize o.core o.daW) (readCell s' o.daW) (tfields m)

/-- SPL requeues its process at the next cell and a new process behind it at the A-operand's address, unless the
warrior's processes, this one counted, are already MAXP: then it only goes to the next cell
(43_control; 92_eei_decisions D15, D26). -/
def Obligations.SplSplitsBelowTheLimit : Prop :=
  ∀ (s : State) (w pc : Nat) (rest : List Nat) (m : Modifier) (a b : InstrField),
    frontProcess s = some (w, pc, rest) → (Instr.spl m a b).WellFormed s.cfg.coreSize →
      let ir : Record := ⟨.spl, m, a, b⟩
      ∃ s', exec (.spl m a b) s = .next s' ∧
        TurnFrame s s' w pc ir none
          (rest ++ (if (queueOf s w).length < s.cfg.maxProcesses
            then [(pc + 1) % s.cfg.coreSize, (operandsOf s pc ir).saR] else [(pc + 1) % s.cfg.coreSize]))

/-- CMP, and SEQ with the same record, skip the next cell if the selected values of both snapshots are equal, under I if
the whole records are; they write nothing of their own (44_compare; 92_eei_decisions D4, D17, D21). -/
def Obligations.CmpAndSeqSkipIfEqual : Prop :=
  ∀ (s : State) (w pc : Nat) (rest : List Nat) (m : Modifier) (a b : InstrField) (i : Instr),
    i = .cmp m a b ∨ i = .seq m a b →
    frontProcess s = some (w, pc, rest) → i.WellFormed s.cfg.coreSize →
      let ir : Record := ⟨.cmp, m, a, b⟩
      let o := operandsOf s pc ir
      ∃ s', exec i s = .next s' ∧
        TurnFrame s s' w pc ir none
          (rest ++ [if (if m = .i then o.src = o.dst else ∀ p ∈ pairs m, valueOf o.src p.1 = valueOf o.dst p.2)
            then (pc + 2) % s.cfg.coreSize else (pc + 1) % s.cfg.coreSize])

/-- SNE skips the next cell if some selected pair differs, under I if the whole records do
(44_compare; 92_eei_decisions D17, D21). -/
def Obligations.SneSkipsIfDifferent : Prop :=
  ∀ (s : State) (w pc : Nat) (rest : List Nat) (m : Modifier) (a b : InstrField),
    frontProcess s = some (w, pc, rest) → (Instr.sne m a b).WellFormed s.cfg.coreSize →
      let ir : Record := ⟨.sne, m, a, b⟩
      let o := operandsOf s pc ir
      ∃ s', exec (.sne m a b) s = .next s' ∧
        TurnFrame s s' w pc ir none
          (rest ++ [if (if m = .i then o.src ≠ o.dst else ∃ p ∈ pairs m, valueOf o.src p.1 ≠ valueOf o.dst p.2)
            then (pc + 2) % s.cfg.coreSize else (pc + 1) % s.cfg.coreSize])

/-- SLT skips the next cell if in every selected pair the source value is less than the destination value, unsigned
(44_compare; 92_eei_decisions D19, D21). -/
def Obligations.SltSkipsIfAllLess : Prop :=
  ∀ (s : State) (w pc : Nat) (rest : List Nat) (m : Modifier) (a b : InstrField),
    frontProcess s = some (w, pc, rest) → (Instr.slt m a b).WellFormed s.cfg.coreSize →
      let ir : Record := ⟨.slt, m, a, b⟩
      let o := operandsOf s pc ir
      ∃ s', exec (.slt m a b) s = .next s' ∧
        TurnFrame s s' w pc ir none
          (rest ++ [if ∀ p ∈ pairs m, valueOf o.src p.1 < valueOf o.dst p.2
            then (pc + 2) % s.cfg.coreSize else (pc + 1) % s.cfg.coreSize])

/-- LDP writes one field value of the destination cell, the modifier's destination letter, from the warrior's own
p-space at the literal of an Immediate B-operand or else at the unwindowed destination address, modulo P
(45_pspace; the target cell, field and index are the spec's own choices, 92_eei_decisions D15, D23). -/
def Obligations.LdpLoadsFromOwnPSpace : Prop :=
  ∀ (s : State) (w pc : Nat) (rest : List Nat) (m : Modifier) (a b : InstrField),
    frontProcess s = some (w, pc, rest) → (Instr.ldp m a b).WellFormed s.cfg.coreSize →
    sparseWf coreFill s.core = true →
      let ir : Record := ⟨.ldp, m, a, b⟩
      let o := operandsOf s pc ir
      let f : Sel := if m = .a ∨ m = .ba then .a else .b
      let idx := (if b.mode = .immediate then b.value else o.da) % s.cfg.pspaceSize
      ∃ s', exec (.ldp m a b) s = .next s' ∧
        TurnFrame s s' w pc ir (some o.daW) (rest ++ [(pc + 1) % s.cfg.coreSize]) ∧
        valueOf (readCell s' o.daW) f = sparseRead pspaceFill (pspaceOf s w) idx % s.cfg.coreSize ∧
        SameButValues (memRead s.cfg.coreSize o.core o.daW) (readCell s' o.daW) [f]

/-- STP stores one field value of the source snapshot, the modifier's source letter, into the warrior's own p-space, and
writes no core cell of its own; every other p-space cell, of this warrior and of the others, stays
(45_pspace; 92_eei_decisions D15, D23, D24). The premise is the canonical form of the warrior's p-space. -/
def Obligations.StpStoresIntoOwnPSpace : Prop :=
  ∀ (s : State) (w pc : Nat) (rest : List Nat) (m : Modifier) (a b : InstrField),
    frontProcess s = some (w, pc, rest) → (Instr.stp m a b).WellFormed s.cfg.coreSize →
    sparseWf pspaceFill (pspaceOf s w) = true →
      let ir : Record := ⟨.stp, m, a, b⟩
      let o := operandsOf s pc ir
      let f : Sel := if m = .a ∨ m = .ab then .a else .b
      let idx := (if b.mode = .immediate then b.value else o.da) % s.cfg.pspaceSize
      ∃ s', exec (.stp m a b) s = .next s' ∧ SameBookkeeping s s' ∧
        CoreFrame s s' pc ir none ∧ CoreAfter s' o none ∧
        queueOf s' w = rest ++ [(pc + 1) % s.cfg.coreSize] ∧
        (s'.warriors.map (·.id)) = s.warriors.map (·.id) ∧
        (∀ v, v ≠ w → s'.warriors[v]? = s.warriors[v]?) ∧
        sparseRead pspaceFill (pspaceOf s' w) idx = valueOf o.src f ∧
        ∀ j, j ≠ idx → sparseRead pspaceFill (pspaceOf s' w) j = sparseRead pspaceFill (pspaceOf s w) j

/-- NOP goes to the next cell; only its operands' side effects are seen (46_nop; 92_eei_decisions D13). -/
def Obligations.NopOnlyAdvances : Prop :=
  ∀ (s : State) (w pc : Nat) (rest : List Nat) (m : Modifier) (a b : InstrField),
    frontProcess s = some (w, pc, rest) → (Instr.nop m a b).WellFormed s.cfg.coreSize →
      ∃ s', exec (.nop m a b) s = .next s' ∧
        TurnFrame s s' w pc ⟨.nop, m, a, b⟩ none (rest ++ [(pc + 1) % s.cfg.coreSize])

/-- On one state and one pair of operands JMN jumps exactly when JMZ with the same modifier does not
(43_control, the corner cases of JMN). -/
def Obligations.JmnJumpsExactlyWhenJmzDoesNot : Prop :=
  ∀ (s s1 s2 : State) (w pc : Nat) (rest : List Nat) (m : Modifier) (a b : InstrField),
    frontProcess s = some (w, pc, rest) → exec (.jmz m a b) s = .next s1 → exec (.jmn m a b) s = .next s2 →
      let target := (operandsOf s pc ⟨.jmz, m, a, b⟩).saR
      let onward := (pc + 1) % s.cfg.coreSize
      (queueOf s1 w = rest ++ [target] ∧ queueOf s2 w = rest ++ [onward]) ∨
        (queueOf s1 w = rest ++ [onward] ∧ queueOf s2 w = rest ++ [target])

/-- On one state and one pair of operands SNE skips exactly when CMP with the same modifier does not
(44_compare, the corner cases of SNE). Under I an Immediate operand stands for the instruction itself, whose opcode
differs between the two, so that I is taken with operands in core. -/
def Obligations.SneSkipsExactlyWhenCmpDoesNot : Prop :=
  ∀ (s s1 s2 : State) (w pc : Nat) (rest : List Nat) (m : Modifier) (a b : InstrField),
    m ≠ .i ∨ (a.mode ≠ .immediate ∧ b.mode ≠ .immediate) →
    frontProcess s = some (w, pc, rest) → exec (.cmp m a b) s = .next s1 → exec (.sne m a b) s = .next s2 →
      let skip := (pc + 2) % s.cfg.coreSize
      let onward := (pc + 1) % s.cfg.coreSize
      (queueOf s1 w = rest ++ [skip] ∧ queueOf s2 w = rest ++ [onward]) ∨
        (queueOf s1 w = rest ++ [onward] ∧ queueOf s2 w = rest ++ [skip])

/-! ## Every instruction -/

/-- No instruction but MOV.I changes an opcode, a modifier or a mode of any cell: the others write field values only
(40_operands "Modifier tables"; 92_eei_decisions D16). The premise is the memory's canonical form. -/
def Obligations.OnlyMovWholeWritesMoreThanValues : Prop :=
  ∀ (i : Instr) (s s' : State), sparseWf coreFill s.core = true → exec i s = .next s' →
    (∀ a b, i ≠ .mov .i a b) → ∀ x, SameButValues (readCell s x) (readCell s' x) [.a, .b]

/-- No instruction changes the configuration, the pass counter, the cursor, N0, the status, an id, or anything of a
warrior that is not executing (10_state "Configuration and status registers"). -/
def Obligations.InstructionsTouchOnlyTheirOwnWarrior : Prop :=
  ∀ (i : Instr) (s s' : State), exec i s = .next s' →
    SameBookkeeping s s' ∧ s'.warriors.map (·.id) = s.warriors.map (·.id) ∧
      ∃ w pc rest, frontProcess s = some (w, pc, rest) ∧ ∀ v, v ≠ w → s'.warriors[v]? = s.warriors[v]?

/-- A structurally invalid instruction is refused, and only such a one; the refusal by name is the model's own (log
entry 9). -/
def Obligations.InvalidInstructionsAreRefused : Prop :=
  ∀ (i : Instr) (s : State),
    ¬ i.WellFormed s.cfg.coreSize ↔ ∃ e, exec i s = .refused (.invalidInstruction e)

/-- R213: no instruction reads or writes the p-space of a warrior other than the executing one, and only LDP and STP
reach even that one: with such a p-space replaced by any other, the same turn is taken, and the replacement stands
after it. -/
def Obligations.PSpaceIsPrivate : Prop :=
  ∀ (i : Instr) (s s' : State) (w v pc : Nat) (rest : List Nat) (ps : Sparse Nat),
    let swap : State → State := fun t => updateWarrior t v fun x => { x with pspace := ps }
    frontProcess s = some (w, pc, rest) → exec i s = .next s' →
    (v ≠ w ∨ (i.record.op ≠ .ldp ∧ i.record.op ≠ .stp)) →
      exec i (swap s) = .next (swap s')

/-! ## The scheduler -/

/-- Whose turn it is: the least index at or after the cursor with a non-empty queue, and the front of that queue
(60_exceptions "Processes and the scheduler"; 92_eei_decisions D27, D28). -/
def Obligations.TheTurnIsTheLeastActiveWarriors : Prop :=
  ∀ (s : State) (w pc : Nat) (rest : List Nat),
    frontProcess s = some (w, pc, rest) ↔
      s.turnPtr ≤ w ∧ w < s.warriors.length ∧ queueOf s w = pc :: rest ∧
        ∀ i, s.turnPtr ≤ i → i < w → queueOf s i = []

/-- A step of a Running match runs the instruction that the cell at the front process's counter holds: the pass begins,
`exec` runs it, the cursor moves and the end test is made (40_operands "The turn"; 60_exceptions "Processes and the
scheduler"). The cell's packed word decodes to that instruction. -/
def Obligations.StepRunsTheFetchedInstruction : Prop :=
  ∀ (s : State) (w pc : Nat) (rest : List Nat) (i : Instr), s.status = .running →
    frontProcess s = some (w, pc, rest) →
    decode s.cfg.coreSize (encodeRecord s.cfg.coreSize (readCell s pc)) = .ok i →
    (readCell s pc).check s.cfg.coreSize = none →
      i = (readCell s pc).instr ∧
        ∃ s', exec i (beginPass s) = .next s' ∧ step s = .next (finishTurn s' w)

/-- A word laid where the next turn fetches is the instruction the next step runs. -/
def Obligations.StepRunsTheLaidWord : Prop :=
  ∀ (s : State) (nbits word w pc : Nat) (rest : List Nat) (i : Instr), s.status = .running →
    sparseWf coreFill s.core = true → frontProcess s = some (w, pc, rest) →
    decode s.cfg.coreSize (word % 2 ^ nbits) = .ok i →
      let t := s.withFetchWord nbits word
      (∀ x, x % s.cfg.coreSize ≠ pc % s.cfg.coreSize → readCell t x = readCell s x) ∧
        ∃ s', exec i (beginPass t) = .next s' ∧ step t = .next (finishTurn s' w)

/-- An Ended match stays as it is through any number of steps (the spec's own choice, 92_eei_decisions D31). -/
def Obligations.AnEndedMatchStaysAsItIs : Prop :=
  ∀ (s : State) (o : MatchOutcome) (k : Nat), s.status = .ended o → runSteps k s = .next s

/-- The pass counter rises by one at the first turn of a pass and at no other turn; the configuration, the ids and N0
never change (60_exceptions "Processes and the scheduler"; 92_eei_decisions D28). -/
def Obligations.ThePassCounterRisesAtThePassStart : Prop :=
  ∀ s s' : State, s.status = .running → step s = .next s' →
    s'.cycleCount = (if s.turnPtr = 0 then s.cycleCount + 1 else s.cycleCount) ∧ s'.cfg = s.cfg ∧ s'.n0 = s.n0 ∧
      s'.warriors.map (·.id) = s.warriors.map (·.id)

/-- After a turn of warrior `w` the cursor is `w + 1` if a warrior with a higher index is Active, else 0
(60_exceptions "Processes and the scheduler"; 92_eei_decisions D28). -/
def Obligations.TheCursorFollowsTheRotation : Prop :=
  ∀ (s s' : State) (w pc : Nat) (rest : List Nat), s.status = .running → frontProcess s = some (w, pc, rest) →
    step s = .next s' →
      ((∃ i, w < i ∧ queueOf s' i ≠ []) → s'.turnPtr = w + 1) ∧
        ((∀ i, w < i → queueOf s' i = []) → s'.turnPtr = 0)

/-- A step of a Running match ends it exactly when the end condition then holds, with the outcome of 60_exceptions: a
Win of the one Active warrior with two or more at setup, a Draw of none when a lone warrior died, a Draw of all Active
warriors at the pass limit (the spec's own choices, 92_eei_decisions D29, D30). A Draw's ids are a set; their order in
the list is the model's choice (log entry 10). -/
def Obligations.TheMatchEndsExactlyAtTheEndCondition : Prop :=
  ∀ s s' : State, s.status = .running → step s = .next s' →
    let few := activeCount s' ≤ (if 2 ≤ s'.n0 then 1 else 0)
    let spent := s'.cfg.maxCycles ≤ s'.cycleCount ∧ s'.turnPtr = 0
    (s'.status = .running ↔ ¬ few ∧ ¬ spent) ∧
      (∀ id, 2 ≤ s'.n0 → activeIds s' = [id] → s'.status = .ended (.win id)) ∧
      (s'.n0 ≤ 1 → activeIds s' = [] → s'.status = .ended (.draw [])) ∧
      (¬ few → spent → s'.status = .ended (.draw (activeIds s')))

/-- R261: an Eliminated warrior stays Eliminated through any number of steps, and a step changes no queue but the
executing warrior's. -/
def Obligations.EliminationIsFinal : Prop :=
  (∀ (s s' : State) (k v : Nat), runSteps k s = .next s' → queueOf s v = [] → queueOf s' v = []) ∧
    ∀ (s s' : State) (w pc : Nat) (rest : List Nat), frontProcess s = some (w, pc, rest) → step s = .next s' →
      ∀ v, v ≠ w → queueOf s' v = queueOf s v

/-- The turn's outcome, as its event records it, is what happens to the queue: a survivor goes to the back, an SPL
child behind it, a dying process nowhere, and the processes ahead keep their order. The event names the pass, the
warrior, the counter and the latched cell (40_operands "Next counter and requeue"; the event is the spec's own, 92_eei_decisions D41). -/
def Obligations.TheTurnEventIsWhatTheStepDoes : Prop :=
  ∀ (s s' : State) (w pc : Nat) (rest : List Nat), s.status = .running → frontProcess s = some (w, pc, rest) →
    step s = .next s' →
      ∃ out, turnEvent s = some ⟨s'.cycleCount, w, pc, readCell s pc, out⟩ ∧
        queueOf s' w =
          (match out with
            | .next p => rest ++ [p]
            | .split p t => rest ++ [p, t]
            | .death _ => rest)

/-- A turn kills its process only by DAT, always, with cause DatExecuted, or by DIV or MOD with a zero divisor selected,
with cause DivideByZero; no other instruction raises anything (60_exceptions "Exceptional events and their codes"). -/
def Obligations.OnlyDatDivAndModKill : Prop :=
  ∀ (s : State) (e : TurnEvent), turnEvent s = some e →
    ((e.out = .death .datExecuted) ↔ e.ir.op = .dat) ∧
      (e.out = .death .divideByZero ↔ (e.ir.op = .div ∨ e.ir.op = .mod) ∧
        ∃ p ∈ pairs e.ir.mod, valueOf (operandsOf s e.pc e.ir).src p.1 = 0)

/-! ## Legal matches -/

/-- `State.reset` is a legal match. Its open parameters and its one warrior are the model's choice (log entries 3 and
4). -/
def Obligations.ResetIsALegalMatch : Prop := Inv State.reset

/-- Every step from a legal match leads to a legal match: canonical memories, valid cells, counters and p-space values in
range, at most MAXP processes, the cursor on a live rotation, the pass counter within the limit, the status as the end
condition says (10_state R23, R26, R28, R29, R32, R33; 60_exceptions R258). The collection of the clauses into one
invariant is the model's. -/
def Obligations.EveryStepKeepsTheMatchLegal : Prop :=
  ∀ s s' : State, Inv s → step s = .next s' → Inv s'

/-- A legal match has no run-time error: a step always answers a next state, and in a Running match some warrior is to
move (60_exceptions "Exceptional events and their codes"; the cursor's condition is 92_eei_decisions D28). -/
def Obligations.ALegalMatchNeverStops : Prop :=
  ∀ s : State, Inv s → (∃ s', step s = .next s') ∧
    (s.status = .running → ∃ w pc rest, frontProcess s = some (w, pc, rest))

/-- In a legal match a Win names the only Active warrior of two or more, and a Draw names all Active ones (60_exceptions
"Processes and the scheduler"; 92_eei_decisions D29, D30). A Draw's ids are a set; their order in the list is the model's
choice (log entry 10). -/
def Obligations.TheOutcomeNamesTheSurvivors : Prop :=
  ∀ s : State, Inv s →
    (∀ id, s.status = .ended (.win id) → 2 ≤ s.n0 ∧ activeIds s = [id]) ∧
      ∀ ids, s.status = .ended (.draw ids) → ids = activeIds s ∧ (activeIds s = [] → s.n0 = 1)

/-- The run of any match that setup accepts ends, within N * MAXC turns, with a result, and never stops before it
(60_exceptions "Exceptional events and their codes"; 70_reset "Host interface"). The number of turns is the bound of
`simulateMatch`'s loop, which the model takes from the spec's own inference (log entry 14). -/
def Obligations.EveryMatchEndsWithAResult : Prop :=
  ∀ (images : List ProgramImage) (ci : ConfigInput) (places : List Nat) (s : State),
    setup images ci places = .ok s →
      ∃ r : MatchResult, simulateMatch images ci places = .ok (some r) ∧ r.cycleCount ≤ s.cfg.maxCycles

/-! ## Setup -/

/-- Setup gives a match exactly when every image is valid, every parameter is in its legal range, the programs fit and
the placement keeps its separations. It reports the first invalid instruction, warriors in order and each program in
order, where there is one, and otherwise the first cause that holds in the order of the configuration table, the
placement last (70_reset "Reset" and "Setup validation, load and entry"; 92_eei_decisions D32, D33). The model's choices
in it: that a list of load addresses of the wrong length, or with one outside `[0, C)`, is a BadPlacement (log entry
12), the order among several invalid instructions (log entry 13), and that a core size of 0 or less is read as 0 while
the images are validated (log entry 20). -/
def Obligations.SetupAcceptsExactlyTheLegalInputs : Prop :=
  ∀ (images : List ProgramImage) (ci : ConfigInput) (places : List Nat),
    let C := ci.coreSize.toNat
    ((∃ s, setup images ci places = .ok s) ↔
      ImagesValid C images ∧ 1 ≤ ci.pspaceSize ∧ ProgramsFit ci.coreSize ci.minSeparation images ∧
      1 ≤ ci.maxProcesses ∧ 1 ≤ ci.coreSize ∧
      (2 ≤ ci.readDistance ∧ ci.readDistance ≤ ci.coreSize) ∧ (2 ≤ ci.writeDistance ∧ ci.writeDistance ≤ ci.coreSize) ∧
      images ≠ [] ∧ (∀ im ∈ images, im.instructions ≠ []) ∧ (images.map (·.id)).Nodup ∧ 0 ≤ ci.maxCycles ∧
      PlacementRule ci.coreSize ci.minSeparation images places) ∧
    (∀ e, setup images ci places = .error (.validation e) ↔
      ∃ before i after, images.flatMap (·.instructions) = before ++ i :: after ∧ readImageInstr C i = .error e ∧
        ∀ j ∈ before, ∃ r, readImageInstr C j = .ok r) ∧
    ∀ e, setup images ci places = .error (.config e) ↔
      ImagesValid C images ∧ FirstCause (configCauses images ci places) e

/-- What a match reset leaves: every program loaded in order from its load address, every cell outside the programs
`DAT.F #0, #0`, one process per warrior at its load address, p-space all 0, ids, configuration and N0 as given, counters
0 (70_reset "Reset"; 92_eei_decisions D9, D39, D40). -/
def Obligations.SetupLeavesTheResetState : Prop :=
  ∀ (images : List ProgramImage) (ci : ConfigInput) (places : List Nat) (s : State),
    setup images ci places = .ok s →
      CoreLoaded images places s ∧
      (∀ (w p : Nat), places[w]? = some p → queueOf s w = [p]) ∧ s.warriors.length = images.length ∧
      (∀ w i, pRead s w i = 0) ∧ s.warriors.map (·.id) = images.map (·.id) ∧ s.cfg = ci.cfg ∧
      s.n0 = images.length ∧ s.cycleCount = 0 ∧ s.turnPtr = 0

/-- Whatever setup answers is a legal match: the invariant holds where every match begins. -/
def Obligations.SetupGivesALegalMatch : Prop :=
  ∀ (images : List ProgramImage) (ci : ConfigInput) (places : List Nat) (s : State),
    setup images ci places = .ok s → Inv s

/-- After setup the match is Running where max_cycles is at least 1; with max_cycles 0 it has ended in a Draw of all
warriors at pass count 0 (70_reset "Reset"; 92_eei_decisions D29, D33). A Draw's ids are a set; their order in the list is
the model's choice (log entry 10). -/
def Obligations.ZeroMaxCyclesEndsTheMatchAtSetup : Prop :=
  ∀ (images : List ProgramImage) (ci : ConfigInput) (places : List Nat) (s : State),
    setup images ci places = .ok s →
      (ci.maxCycles = 0 → s.status = .ended (.draw (images.map (·.id))) ∧ s.cycleCount = 0) ∧
        (1 ≤ ci.maxCycles → s.status = .running)

/-- `place_packed` puts each program behind the ones before it, `max(len, MINSEP)` cells for each, and satisfies the
placement constraint whenever the configuration passes its validation (70_reset "Setup validation, load and entry";
92_eei_decisions D32). -/
def Obligations.PackedPlacementIsAlwaysLegal : Prop :=
  ∀ (images : List ProgramImage) (ci : ConfigInput), validateConfig images ci = none →
    let places := placePacked ci.minSeparation images
    PlacementRule ci.coreSize ci.minSeparation images places ∧
      ∀ (k p : Nat), places[k]? = some p →
        (p : Int) = ((images.take k).map fun im => max (im.instructions.length : Int) ci.minSeparation).sum

/-- No placement of two or more programs satisfies the constraint where their separations exceed the core, so that
CoreTooSmall refuses only what could not be placed (70_reset "Setup validation, load and entry"; 92_eei_decisions
D32). -/
def Obligations.NoPlacementExistsInATooSmallCore : Prop :=
  ∀ (C : Nat) (minSep : Int) (images : List ProgramImage) (places : List Nat), 2 ≤ images.length →
    PlacementRule C minSep images places →
      (images.map fun im => max (im.instructions.length : Int) minSep).sum ≤ C

/-- A round reset of a legal match gives a legal match with the core refilled and every program loaded from its new load
address, every p-space, id, the configuration and N0 kept, the counters 0 and one process per warrior at its new load
address (70_reset "Reset"; 92_eei_decisions D34). That the images are given again is the model's choice (log entry
6). -/
def Obligations.ANewRoundKeepsThePSpaces : Prop :=
  ∀ (images : List ProgramImage) (places : List Nat) (s s' : State), Inv s → newRound images places s = .ok s' →
    Inv s' ∧ CoreLoaded images places s' ∧ (∀ w i, pRead s' w i = pRead s w i) ∧
      s'.warriors.map (·.id) = s.warriors.map (·.id) ∧ s'.cfg = s.cfg ∧ s'.n0 = s.n0 ∧ s'.cycleCount = 0 ∧
      s'.turnPtr = 0 ∧ ∀ w p, places[w]? = some p → queueOf s' w = [p]
end

