-- ==== Sys2Proof/Laws/Sparse.lean ====
section
/-! SUPPORT. Laws of the sparse memories: read after write, the canonical form is kept, equal memories are equal data. -/

namespace Sys2Proof.Machine

variable {α : Type} [DecidableEq α] {d : α}

theorem sparseWf_iff {m : Sparse α} :
    sparseWf d m = true ↔ m.Pairwise (fun x y => x.1 < y.1) ∧ ∀ e ∈ m, e.2 ≠ d := by
  simp [sparseWf]

theorem sparseWf_nil : sparseWf d ([] : Sparse α) = true := rfl

theorem sparseWf_cons {b : Nat} {x : α} {m : Sparse α} :
    sparseWf d ((b, x) :: m) = true ↔ (∀ e ∈ m, b < e.1) ∧ x ≠ d ∧ sparseWf d m = true := by
  simp only [sparseWf_iff, List.pairwise_cons, List.mem_cons, forall_eq_or_imp]
  tauto

omit [DecidableEq α] in
/-- Below every listed address, a memory reads as unlisted. -/
theorem sparseRead_of_lt {m : Sparse α} {a : Nat} (h : ∀ e ∈ m, a < e.1) : sparseRead d m a = d := by
  induction m with
  | nil => rfl
  | cons e m ih =>
    obtain ⟨b, x⟩ := e
    have hb : a < b := h (b, x) (by simp)
    rw [sparseRead, if_neg (by omega), ih fun e he => h e (by simp [he])]

/-- What a write can leave in the list: the pair it stores, and pairs that stood there. -/
theorem mem_sparseWrite {m : Sparse α} {a : Nat} {v : α} {e : Nat × α}
    (h : e ∈ sparseWrite d m a v) : (e = (a, v) ∧ v ≠ d) ∨ e ∈ m := by
  induction m with
  | nil =>
    unfold sparseWrite at h
    split at h <;> simp_all
  | cons f m ih =>
    obtain ⟨b, x⟩ := f
    unfold sparseWrite at h
    split_ifs at h <;> simp_all <;> tauto

/-- A write keeps the canonical form. -/
theorem sparseWrite_wf {m : Sparse α} (hm : sparseWf d m = true) (a : Nat) (v : α) :
    sparseWf d (sparseWrite d m a v) = true := by
  induction m with
  | nil =>
    unfold sparseWrite
    split
    · rfl
    · rename_i hv
      simpa [sparseWf_cons, sparseWf_nil] using hv
  | cons f m ih =>
    obtain ⟨b, x⟩ := f
    obtain ⟨hlt, hx, hm'⟩ := sparseWf_cons.1 hm
    unfold sparseWrite
    split_ifs with h1 h2 h3 h4
    · exact hm
    · refine sparseWf_cons.2 ⟨fun e he => ?_, h2, hm⟩
      rcases List.mem_cons.1 he with rfl | he
      · exact h1
      · exact lt_trans h1 (hlt e he)
    · exact hm'
    · exact sparseWf_cons.2 ⟨fun e he => h3 ▸ hlt e he, h4, hm'⟩
    · refine sparseWf_cons.2 ⟨fun e he => ?_, hx, ih hm'⟩
      rcases mem_sparseWrite he with ⟨rfl, -⟩ | he
      · simp only; omega
      · exact hlt e he

/-- A read after a write to the same address gives the value written. -/
theorem sparseRead_write_same {m : Sparse α} (hm : sparseWf d m = true) (a : Nat) (v : α) :
    sparseRead d (sparseWrite d m a v) a = v := by
  induction m with
  | nil =>
    unfold sparseWrite
    split <;> simp_all [sparseRead]
  | cons f m ih =>
    obtain ⟨b, x⟩ := f
    obtain ⟨hlt, -, hm'⟩ := sparseWf_cons.1 hm
    unfold sparseWrite
    split_ifs with h1 h2 h3 h4
    · rw [h2]
      exact sparseRead_of_lt fun e he => by
        rcases List.mem_cons.1 he with rfl | he
        · exact h1
        · exact lt_trans h1 (hlt e he)
    · simp [sparseRead]
    · rw [h4]
      exact sparseRead_of_lt fun e he => h3 ▸ hlt e he
    · simp [sparseRead]
    · rw [sparseRead, if_neg h3]
      exact ih hm'

/-- A write leaves every other address as it was. -/
theorem sparseRead_write_other (m : Sparse α) {a c : Nat} (v : α) (h : c ≠ a) :
    sparseRead d (sparseWrite d m a v) c = sparseRead d m c := by
  induction m with
  | nil =>
    unfold sparseWrite
    split <;> simp [sparseRead, h]
  | cons f m ih =>
    obtain ⟨b, x⟩ := f
    unfold sparseWrite
    split_ifs with h1 h2 h3 h4
    · rfl
    · simp [sparseRead, h]
    · subst h3
      simp [sparseRead, h]
    · subst h3
      simp [sparseRead, h]
    · simp only [sparseRead, ih]

omit [DecidableEq α] in
/-- A read gives what an unlisted address reads as, or a listed value. -/
theorem sparseRead_eq_or_mem (m : Sparse α) (a : Nat) :
    sparseRead d m a = d ∨ (a, sparseRead d m a) ∈ m := by
  induction m with
  | nil => exact .inl rfl
  | cons f m ih =>
    obtain ⟨b, x⟩ := f
    rw [sparseRead]
    split_ifs with h
    · subst h
      exact .inr (by simp)
    · rcases ih with h | h
      · exact .inl h
      · exact .inr (by simp [h])

/-- In canonical form every listed pair is what its address reads as. -/
theorem sparseRead_of_mem {m : Sparse α} (hm : sparseWf d m = true) {e : Nat × α} (he : e ∈ m) :
    sparseRead d m e.1 = e.2 := by
  induction m with
  | nil => simp at he
  | cons f m ih =>
    obtain ⟨b, x⟩ := f
    obtain ⟨hlt, -, hm'⟩ := sparseWf_cons.1 hm
    rcases List.mem_cons.1 he with rfl | he
    · simp [sparseRead]
    · have := hlt e he
      rw [sparseRead, if_neg (by omega)]
      exact ih hm' he

/-- Memories in canonical form that read alike everywhere are the same list. -/
theorem sparse_ext {m m' : Sparse α} (hm : sparseWf d m = true) (hm' : sparseWf d m' = true)
    (h : ∀ a, sparseRead d m a = sparseRead d m' a) : m = m' := by
  have mem_of {l l' : Sparse α} (hl : sparseWf d l = true) (h : ∀ a, sparseRead d l a = sparseRead d l' a)
      {e : Nat × α} (he : e ∈ l) : e ∈ l' := by
    have h1 := sparseRead_of_mem hl he
    rw [h] at h1
    rcases sparseRead_eq_or_mem (d := d) l' e.1 with h2 | h2
    · exact absurd (h1.symm.trans h2) ((sparseWf_iff.1 hl).2 e he)
    · rwa [h1] at h2
  have hs := (sparseWf_iff.1 hm).1
  have hs' := (sparseWf_iff.1 hm').1
  have nodup {l : Sparse α} (hl : l.Pairwise fun x y => x.1 < y.1) : l.Nodup :=
    hl.imp fun hlt heq => by subst heq; omega
  refine List.Perm.eq_of_pairwise (le := fun x y => x.1 < y.1) (fun a b _ _ h1 h2 => ?_) hs hs' ?_
  · omega
  · exact (List.perm_ext_iff_of_nodup (nodup hs) (nodup hs')).2
      fun e => ⟨mem_of hm h, mem_of hm' fun a => (h a).symm⟩

end Sys2Proof.Machine
end

