-- ==== Sys2Proof/Laws/State.lean ====
section
/-! SUPPORT. One lemma per field per update of the state, each true by rfl, so that no later proof unfolds a record update. -/

namespace Sys2Proof.Machine

/-! ### `setCore` -/

@[simp] theorem setCore_cfg (s : State) (c : CoreMem) : (setCore s c).cfg = s.cfg := rfl
@[simp] theorem setCore_core (s : State) (c : CoreMem) : (setCore s c).core = c := rfl
@[simp] theorem setCore_warriors (s : State) (c : CoreMem) : (setCore s c).warriors = s.warriors := rfl
@[simp] theorem setCore_cycleCount (s : State) (c : CoreMem) : (setCore s c).cycleCount = s.cycleCount := rfl
@[simp] theorem setCore_turnPtr (s : State) (c : CoreMem) : (setCore s c).turnPtr = s.turnPtr := rfl
@[simp] theorem setCore_n0 (s : State) (c : CoreMem) : (setCore s c).n0 = s.n0 := rfl
@[simp] theorem setCore_status (s : State) (c : CoreMem) : (setCore s c).status = s.status := rfl

/-! ### `writeCell` and `writeValue` -/

@[simp] theorem writeCell_cfg (s : State) (a : Nat) (v : Record) : (writeCell s a v).cfg = s.cfg := rfl
@[simp] theorem writeCell_core (s : State) (a : Nat) (v : Record) :
    (writeCell s a v).core = memWrite s.cfg.coreSize s.core a v := rfl
@[simp] theorem writeCell_warriors (s : State) (a : Nat) (v : Record) : (writeCell s a v).warriors = s.warriors := rfl
@[simp] theorem writeCell_cycleCount (s : State) (a : Nat) (v : Record) :
    (writeCell s a v).cycleCount = s.cycleCount := rfl
@[simp] theorem writeCell_turnPtr (s : State) (a : Nat) (v : Record) : (writeCell s a v).turnPtr = s.turnPtr := rfl
@[simp] theorem writeCell_n0 (s : State) (a : Nat) (v : Record) : (writeCell s a v).n0 = s.n0 := rfl
@[simp] theorem writeCell_status (s : State) (a : Nat) (v : Record) : (writeCell s a v).status = s.status := rfl

@[simp] theorem writeValue_cfg (s : State) (a : Nat) (f : Sel) (v : Nat) : (writeValue s a f v).cfg = s.cfg := rfl
@[simp] theorem writeValue_core (s : State) (a : Nat) (f : Sel) (v : Nat) :
    (writeValue s a f v).core = memWriteValue s.cfg.coreSize s.core a f v := rfl
@[simp] theorem writeValue_warriors (s : State) (a : Nat) (f : Sel) (v : Nat) :
    (writeValue s a f v).warriors = s.warriors := rfl
@[simp] theorem writeValue_cycleCount (s : State) (a : Nat) (f : Sel) (v : Nat) :
    (writeValue s a f v).cycleCount = s.cycleCount := rfl
@[simp] theorem writeValue_turnPtr (s : State) (a : Nat) (f : Sel) (v : Nat) :
    (writeValue s a f v).turnPtr = s.turnPtr := rfl
@[simp] theorem writeValue_n0 (s : State) (a : Nat) (f : Sel) (v : Nat) : (writeValue s a f v).n0 = s.n0 := rfl
@[simp] theorem writeValue_status (s : State) (a : Nat) (f : Sel) (v : Nat) :
    (writeValue s a f v).status = s.status := rfl

/-! ### `updateWarrior` -/

@[simp] theorem updateWarrior_cfg (s : State) (w : Nat) (f : Warrior → Warrior) : (updateWarrior s w f).cfg = s.cfg := rfl
@[simp] theorem updateWarrior_core (s : State) (w : Nat) (f : Warrior → Warrior) :
    (updateWarrior s w f).core = s.core := rfl
@[simp] theorem updateWarrior_warriors (s : State) (w : Nat) (f : Warrior → Warrior) :
    (updateWarrior s w f).warriors = s.warriors.modify w f := rfl
@[simp] theorem updateWarrior_cycleCount (s : State) (w : Nat) (f : Warrior → Warrior) :
    (updateWarrior s w f).cycleCount = s.cycleCount := rfl
@[simp] theorem updateWarrior_turnPtr (s : State) (w : Nat) (f : Warrior → Warrior) :
    (updateWarrior s w f).turnPtr = s.turnPtr := rfl
@[simp] theorem updateWarrior_n0 (s : State) (w : Nat) (f : Warrior → Warrior) : (updateWarrior s w f).n0 = s.n0 := rfl
@[simp] theorem updateWarrior_status (s : State) (w : Nat) (f : Warrior → Warrior) :
    (updateWarrior s w f).status = s.status := rfl

/-! ### `setQueue` and `enqueue` -/

@[simp] theorem setQueue_cfg (s : State) (w : Nat) (q : List Nat) : (setQueue s w q).cfg = s.cfg := rfl
@[simp] theorem setQueue_core (s : State) (w : Nat) (q : List Nat) : (setQueue s w q).core = s.core := rfl
@[simp] theorem setQueue_warriors (s : State) (w : Nat) (q : List Nat) :
    (setQueue s w q).warriors = s.warriors.modify w fun x => { x with queue := q } := rfl
@[simp] theorem setQueue_cycleCount (s : State) (w : Nat) (q : List Nat) :
    (setQueue s w q).cycleCount = s.cycleCount := rfl
@[simp] theorem setQueue_turnPtr (s : State) (w : Nat) (q : List Nat) : (setQueue s w q).turnPtr = s.turnPtr := rfl
@[simp] theorem setQueue_n0 (s : State) (w : Nat) (q : List Nat) : (setQueue s w q).n0 = s.n0 := rfl
@[simp] theorem setQueue_status (s : State) (w : Nat) (q : List Nat) : (setQueue s w q).status = s.status := rfl

@[simp] theorem enqueue_cfg (s : State) (w p : Nat) : (enqueue s w p).cfg = s.cfg := rfl
@[simp] theorem enqueue_core (s : State) (w p : Nat) : (enqueue s w p).core = s.core := rfl
@[simp] theorem enqueue_cycleCount (s : State) (w p : Nat) : (enqueue s w p).cycleCount = s.cycleCount := rfl
@[simp] theorem enqueue_turnPtr (s : State) (w p : Nat) : (enqueue s w p).turnPtr = s.turnPtr := rfl
@[simp] theorem enqueue_n0 (s : State) (w p : Nat) : (enqueue s w p).n0 = s.n0 := rfl
@[simp] theorem enqueue_status (s : State) (w p : Nat) : (enqueue s w p).status = s.status := rfl

/-! ### `pWrite` -/

@[simp] theorem pWrite_cfg (s : State) (w i v : Nat) : (pWrite s w i v).cfg = s.cfg := rfl
@[simp] theorem pWrite_core (s : State) (w i v : Nat) : (pWrite s w i v).core = s.core := rfl
@[simp] theorem pWrite_cycleCount (s : State) (w i v : Nat) : (pWrite s w i v).cycleCount = s.cycleCount := rfl
@[simp] theorem pWrite_turnPtr (s : State) (w i v : Nat) : (pWrite s w i v).turnPtr = s.turnPtr := rfl
@[simp] theorem pWrite_n0 (s : State) (w i v : Nat) : (pWrite s w i v).n0 = s.n0 := rfl
@[simp] theorem pWrite_status (s : State) (w i v : Nat) : (pWrite s w i v).status = s.status := rfl

/-! ### The scheduler's updates -/

@[simp] theorem evaluateEnd_cfg (s : State) : (evaluateEnd s).cfg = s.cfg := rfl
@[simp] theorem evaluateEnd_core (s : State) : (evaluateEnd s).core = s.core := rfl
@[simp] theorem evaluateEnd_warriors (s : State) : (evaluateEnd s).warriors = s.warriors := rfl
@[simp] theorem evaluateEnd_cycleCount (s : State) : (evaluateEnd s).cycleCount = s.cycleCount := rfl
@[simp] theorem evaluateEnd_turnPtr (s : State) : (evaluateEnd s).turnPtr = s.turnPtr := rfl
@[simp] theorem evaluateEnd_n0 (s : State) : (evaluateEnd s).n0 = s.n0 := rfl
@[simp] theorem evaluateEnd_status (s : State) : (evaluateEnd s).status = statusOf s := rfl

@[simp] theorem advanceCursor_cfg (s : State) (w : Nat) : (advanceCursor s w).cfg = s.cfg := rfl
@[simp] theorem advanceCursor_core (s : State) (w : Nat) : (advanceCursor s w).core = s.core := rfl
@[simp] theorem advanceCursor_warriors (s : State) (w : Nat) : (advanceCursor s w).warriors = s.warriors := rfl
@[simp] theorem advanceCursor_cycleCount (s : State) (w : Nat) : (advanceCursor s w).cycleCount = s.cycleCount := rfl
@[simp] theorem advanceCursor_turnPtr (s : State) (w : Nat) :
    (advanceCursor s w).turnPtr = if laterActive s w then w + 1 else 0 := rfl
@[simp] theorem advanceCursor_n0 (s : State) (w : Nat) : (advanceCursor s w).n0 = s.n0 := rfl
@[simp] theorem advanceCursor_status (s : State) (w : Nat) : (advanceCursor s w).status = s.status := rfl

@[simp] theorem beginPass_cfg (s : State) : (beginPass s).cfg = s.cfg := by unfold beginPass; split <;> rfl
@[simp] theorem beginPass_core (s : State) : (beginPass s).core = s.core := by unfold beginPass; split <;> rfl
@[simp] theorem beginPass_warriors (s : State) : (beginPass s).warriors = s.warriors := by
  unfold beginPass; split <;> rfl
@[simp] theorem beginPass_turnPtr (s : State) : (beginPass s).turnPtr = s.turnPtr := by unfold beginPass; split <;> rfl
@[simp] theorem beginPass_n0 (s : State) : (beginPass s).n0 = s.n0 := by unfold beginPass; split <;> rfl
@[simp] theorem beginPass_status (s : State) : (beginPass s).status = s.status := by unfold beginPass; split <;> rfl
theorem beginPass_cycleCount (s : State) :
    (beginPass s).cycleCount = if s.turnPtr = 0 then s.cycleCount + 1 else s.cycleCount := by
  unfold beginPass; split <;> rfl

/-- The status does not enter the end test. -/
@[simp] theorem statusOf_evaluateEnd (s : State) : statusOf (evaluateEnd s) = statusOf s := rfl

end Sys2Proof.Machine
end

