-- ==== Sys2Proof/Laws/Word.lean ====
section
/-! SUPPORT. Laws of the residue `modC`. -/

namespace Sys2Proof

@[simp] theorem modC_natCast (C a : Nat) : modC C (a : Int) = a % C := by
  unfold modC
  rw [← Int.natCast_mod, Int.toNat_natCast]

theorem modC_lt {C : Nat} (hC : 0 < C) (v : Int) : modC C v < C := by
  unfold modC
  have h1 := Int.emod_nonneg v (b := (C : Int)) (by omega)
  have h2 := Int.emod_lt_of_pos v (b := (C : Int)) (by omega)
  omega

theorem modC_cast {C : Nat} (hC : 0 < C) (v : Int) : ((modC C v : Nat) : Int) = v % (C : Int) := by
  unfold modC
  exact Int.toNat_of_nonneg (Int.emod_nonneg v (by omega))

theorem modC_of_lt {C a : Nat} (h : a < C) : modC C (a : Int) = a := by
  rw [modC_natCast, Nat.mod_eq_of_lt h]

/-- Reducing twice is reducing once, for every core size. -/
@[simp] theorem modC_mod (C : Nat) (v : Int) : modC C v % C = modC C v := by
  rcases Nat.eq_zero_or_pos C with rfl | hC
  · exact Nat.mod_zero _
  · exact Nat.mod_eq_of_lt (modC_lt hC v)

/-- Two integers with the same residue are the same address. -/
theorem modC_eq_iff {C : Nat} (hC : 0 < C) (u v : Int) :
    modC C u = modC C v ↔ u % (C : Int) = v % (C : Int) := by
  rw [← modC_cast hC u, ← modC_cast hC v]
  omega

theorem modC_add_mul (C : Nat) (v k : Int) : modC C (v + k * C) = modC C v := by
  unfold modC
  rw [Int.add_mul_emod_self_right]

end Sys2Proof
end

