-- ==== Sys2Proof/Laws/Memory.lean ====
section
/-! SUPPORT. Laws of the core: read after write, one field value at a time, and that every write keeps the core legal. -/

namespace Sys2Proof.Machine

/-! ### Records -/

theorem valueOf_withValue (r : Record) (f g : Sel) (v : Nat) :
    valueOf (withValue r f v) g = if g = f then v else valueOf r g := by
  cases f <;> cases g <;> rfl

@[simp] theorem withValue_op (r : Record) (f : Sel) (v : Nat) : (withValue r f v).op = r.op := by cases f <;> rfl
@[simp] theorem withValue_mod (r : Record) (f : Sel) (v : Nat) : (withValue r f v).mod = r.mod := by cases f <;> rfl
@[simp] theorem withValue_aMode (r : Record) (f : Sel) (v : Nat) : (withValue r f v).a.mode = r.a.mode := by
  cases f <;> rfl
@[simp] theorem withValue_bMode (r : Record) (f : Sel) (v : Nat) : (withValue r f v).b.mode = r.b.mode := by
  cases f <;> rfl

/-- A valid record has a legal modifier and canonical values (10_state R26). -/
theorem check_eq_none {C : Nat} {r : Record} :
    r.check C = none ↔ r.mod ∈ legalModifiers r.op ∧ r.a.value < C ∧ r.b.value < C := by
  unfold Record.check
  by_cases h : r.mod ∈ legalModifiers r.op
  · simp only [List.contains_iff_mem.2 h, Bool.not_true, Bool.false_eq_true, if_false, h, true_and]
    split_ifs with h1 h2 <;> simp <;> omega
  · simp [h]

theorem wellFormed_iff {C : Nat} {i : Instr} : i.WellFormed C ↔ i.record.check C = none :=
  check_eq_none.symm

theorem valueOf_lt {C : Nat} {r : Record} (h : r.check C = none) (f : Sel) : valueOf r f < C := by
  obtain ⟨-, ha, hb⟩ := check_eq_none.1 h
  cases f
  · exact ha
  · exact hb

theorem withValue_check {C : Nat} {r : Record} (h : r.check C = none) {f : Sel} {v : Nat} (hv : v < C) :
    (withValue r f v).check C = none := by
  obtain ⟨hl, ha, hb⟩ := check_eq_none.1 h
  cases f
  · exact check_eq_none.2 ⟨hl, hv, hb⟩
  · exact check_eq_none.2 ⟨hl, ha, hv⟩

theorem coreFill_check {C : Nat} (hC : 0 < C) : coreFill.check C = none :=
  check_eq_none.2 ⟨by decide, hC, hC⟩

/-! ### Whole cells -/

theorem memRead_eq_mod (C : Nat) (core : CoreMem) (a : Nat) : memRead C core a = sparseRead coreFill core (a % C) := by
  rw [memRead, modC_natCast]

/-- Every address is reduced modulo the core size (20_memory R51). -/
theorem memRead_congr {C : Nat} (core : CoreMem) {a b : Nat} (h : a % C = b % C) : memRead C core a = memRead C core b := by
  rw [memRead_eq_mod, memRead_eq_mod, h]

theorem memWrite_wf {C : Nat} {core : CoreMem} (hm : sparseWf coreFill core = true) (a : Nat) (v : Record) :
    sparseWf coreFill (memWrite C core a v) = true := sparseWrite_wf hm _ _

theorem memRead_memWrite_same {C : Nat} {core : CoreMem} (hm : sparseWf coreFill core = true) {a b : Nat}
    (h : b % C = a % C) (v : Record) : memRead C (memWrite C core a v) b = v := by
  rw [memRead_eq_mod, memWrite, modC_natCast, h, sparseRead_write_same hm]

theorem memRead_memWrite_other {C : Nat} (core : CoreMem) {a b : Nat} (h : b % C ≠ a % C) (v : Record) :
    memRead C (memWrite C core a v) b = memRead C core b := by
  rw [memRead_eq_mod, memRead_eq_mod, memWrite, modC_natCast, sparseRead_write_other _ _ h]

/-- Every cell of a legal core holds a valid record (10_state R26). -/
theorem memRead_check {C : Nat} (hC : 0 < C) {core : CoreMem} (h : CoreOk C core) (a : Nat) :
    (memRead C core a).check C = none := by
  rw [memRead_eq_mod]
  rcases sparseRead_eq_or_mem (d := coreFill) core (a % C) with h1 | h1
  · rw [h1]; exact coreFill_check hC
  · exact (h.2 _ h1).2

theorem memWrite_coreOk {C : Nat} (hC : 0 < C) {core : CoreMem} (h : CoreOk C core) (a : Nat) {v : Record}
    (hv : v.check C = none) : CoreOk C (memWrite C core a v) := by
  refine ⟨memWrite_wf h.1 a v, fun e he => ?_⟩
  rcases mem_sparseWrite he with ⟨rfl, -⟩ | he
  · exact ⟨modC_lt hC (a : Int), hv⟩
  · exact h.2 e he

/-! ### One field value -/

theorem memWriteValue_wf {C : Nat} {core : CoreMem} (hm : sparseWf coreFill core = true) (a : Nat) (f : Sel) (v : Nat) :
    sparseWf coreFill (memWriteValue C core a f v) = true := memWrite_wf hm _ _

theorem memRead_memWriteValue_same {C : Nat} {core : CoreMem} (hm : sparseWf coreFill core = true) {a b : Nat}
    (h : b % C = a % C) (f : Sel) (v : Nat) :
    memRead C (memWriteValue C core a f v) b = withValue (memRead C core a) f v := memRead_memWrite_same hm h _

theorem memRead_memWriteValue_other {C : Nat} (core : CoreMem) {a b : Nat} (h : b % C ≠ a % C) (f : Sel) (v : Nat) :
    memRead C (memWriteValue C core a f v) b = memRead C core b := memRead_memWrite_other core h _

theorem memWriteValue_coreOk {C : Nat} (hC : 0 < C) {core : CoreMem} (h : CoreOk C core) (a : Nat) (f : Sel) {v : Nat}
    (hv : v < C) : CoreOk C (memWriteValue C core a f v) :=
  memWrite_coreOk hC h a (withValue_check (memRead_check hC h a) hv)

/-- What a field-value write leaves of any cell: opcode, modifier and modes (20_memory R55). -/
theorem memWriteValue_sameButValues {C : Nat} {core : CoreMem} (hm : sparseWf coreFill core = true) (a : Nat) (f : Sel)
    (v b : Nat) : SameButValues (memRead C core b) (memRead C (memWriteValue C core a f v) b) [f] := by
  by_cases h : b % C = a % C
  · rw [memRead_memWriteValue_same hm h, memRead_congr core h]
    exact ⟨by simp, by simp, by simp, by simp, fun g hg => by
      rw [valueOf_withValue, if_neg (by simpa using hg)]⟩
  · rw [memRead_memWriteValue_other core h]
    exact ⟨rfl, rfl, rfl, rfl, fun _ _ => rfl⟩

/-! ### Several field values of one cell -/

/-- All that `writeValues` does to the rest of the state: nothing. -/
theorem writeValues_eq_setCore (s : State) (a : Nat) (l : List (Sel × Nat)) :
    writeValues s a l = setCore s (writeValues s a l).core := by
  induction l generalizing s with
  | nil => rfl
  | cons p l ih => rw [writeValues, ih]; rfl

@[simp] theorem writeValues_cfg (s : State) (a : Nat) (l : List (Sel × Nat)) : (writeValues s a l).cfg = s.cfg := by
  rw [writeValues_eq_setCore]; rfl
@[simp] theorem writeValues_warriors (s : State) (a : Nat) (l : List (Sel × Nat)) :
    (writeValues s a l).warriors = s.warriors := by
  rw [writeValues_eq_setCore]; rfl
@[simp] theorem writeValues_cycleCount (s : State) (a : Nat) (l : List (Sel × Nat)) :
    (writeValues s a l).cycleCount = s.cycleCount := by
  rw [writeValues_eq_setCore]; rfl
@[simp] theorem writeValues_turnPtr (s : State) (a : Nat) (l : List (Sel × Nat)) :
    (writeValues s a l).turnPtr = s.turnPtr := by
  rw [writeValues_eq_setCore]; rfl
@[simp] theorem writeValues_n0 (s : State) (a : Nat) (l : List (Sel × Nat)) : (writeValues s a l).n0 = s.n0 := by
  rw [writeValues_eq_setCore]; rfl
@[simp] theorem writeValues_status (s : State) (a : Nat) (l : List (Sel × Nat)) :
    (writeValues s a l).status = s.status := by
  rw [writeValues_eq_setCore]; rfl

theorem writeValues_wf {s : State} (hm : sparseWf coreFill s.core = true) (a : Nat) (l : List (Sel × Nat)) :
    sparseWf coreFill (writeValues s a l).core = true := by
  induction l generalizing s with
  | nil => exact hm
  | cons p l ih => exact ih (memWriteValue_wf hm a p.1 p.2)

theorem writeValues_coreOk {s : State} (hC : 0 < s.cfg.coreSize) (h : CoreOk s.cfg.coreSize s.core) (a : Nat)
    {l : List (Sel × Nat)} (hl : ∀ p ∈ l, p.2 < s.cfg.coreSize) :
    CoreOk s.cfg.coreSize (writeValues s a l).core := by
  induction l generalizing s with
  | nil => exact h
  | cons p l ih =>
    have hp := memWriteValue_coreOk hC h a p.1 (hl p (by simp))
    exact ih (s := writeValue s a p.1 p.2) hC hp fun q hq => hl q (by simp [hq])

/-- Every other cell stays. -/
theorem readCell_writeValues_other (s : State) {a b : Nat} (h : b % s.cfg.coreSize ≠ a % s.cfg.coreSize)
    (l : List (Sel × Nat)) : readCell (writeValues s a l) b = readCell s b := by
  induction l generalizing s with
  | nil => rfl
  | cons p l ih =>
    rw [writeValues, ih _ (by simpa using h)]
    exact memRead_memWriteValue_other s.core h p.1 p.2

/-- The cell written keeps its opcode, modifier, modes and the fields not named. -/
theorem writeValues_sameButValues {s : State} (hm : sparseWf coreFill s.core = true) (a : Nat) (l : List (Sel × Nat))
    (b : Nat) : SameButValues (readCell s b) (readCell (writeValues s a l) b) (l.map (·.1)) := by
  induction l generalizing s with
  | nil => exact ⟨rfl, rfl, rfl, rfl, fun _ _ => rfl⟩
  | cons p l ih =>
    have h1 := memWriteValue_sameButValues (C := s.cfg.coreSize) hm a p.1 p.2 b
    have h2 := ih (s := writeValue s a p.1 p.2) (memWriteValue_wf hm a p.1 p.2)
    refine ⟨h2.op.trans h1.op, h2.mod.trans h1.mod, h2.aMode.trans h1.aMode, h2.bMode.trans h1.bMode, fun f hf => ?_⟩
    simp only [List.map_cons, List.mem_cons, not_or] at hf
    exact (h2.other f hf.2).trans (h1.other f (by simpa using hf.1))

/-- Each named field of the cell written holds its value, where no field is named twice. -/
theorem valueOf_writeValues {s : State} (hm : sparseWf coreFill s.core = true) (a : Nat) {l : List (Sel × Nat)}
    (hl : (l.map (·.1)).Nodup) {p : Sel × Nat} (hp : p ∈ l) :
    valueOf (readCell (writeValues s a l) a) p.1 = p.2 := by
  induction l generalizing s with
  | nil => simp at hp
  | cons q l ih =>
    simp only [List.map_cons, List.nodup_cons] at hl
    have hm' : sparseWf coreFill (writeValue s a q.1 q.2).core = true := memWriteValue_wf hm a q.1 q.2
    rcases List.mem_cons.1 hp with rfl | hp
    · have h1 := (writeValues_sameButValues hm' a l a).other p.1 hl.1
      rw [writeValues, h1]
      have h2 : readCell (writeValue s a p.1 p.2) a = withValue (readCell s a) p.1 p.2 :=
        memRead_memWriteValue_same hm rfl p.1 p.2
      rw [h2, valueOf_withValue, if_pos rfl]
    · exact ih hm' hl.2 hp

end Sys2Proof.Machine
end

