-- ==== Sys2Proof/Laws/Encoding.lean ====
section
/-! SUPPORT. Laws of the codes and of the packed word's width. -/

namespace Sys2Proof

@[simp] theorem opcodeOfCode_code (o : Opcode) : opcodeOfCode o.code = some o := by cases o <;> rfl
@[simp] theorem modifierOfCode_code (m : Modifier) : modifierOfCode m.code = some m := by cases m <;> rfl
@[simp] theorem modeOfCode_code (m : Mode) : modeOfCode m.code = m := by cases m <;> rfl

theorem Opcode.code_lt (o : Opcode) : o.code < 18 := by cases o <;> decide
theorem Modifier.code_lt (m : Modifier) : m.code < 7 := by cases m <;> decide
theorem Mode.code_lt (m : Mode) : m.code < 8 := by cases m <;> decide

/-- Reading a code and writing it back. -/
theorem code_of_opcodeOfCode {n : Nat} {o : Opcode} (h : opcodeOfCode n = some o) : o.code = n := by
  unfold opcodeOfCode at h
  split at h <;> first | (cases h; rfl) | simp at h

theorem code_of_modifierOfCode {n : Nat} {m : Modifier} (h : modifierOfCode n = some m) : m.code = n := by
  unfold modifierOfCode at h
  split at h <;> first | (cases h; rfl) | simp at h

theorem code_modeOfCode {n : Nat} (h : n < 8) : (modeOfCode n).code = n := by
  interval_cases n <;> rfl

@[simp] theorem record_instr (r : Record) : r.instr.record = r := by
  obtain ⟨op, m, a, b⟩ := r
  cases op <;> rfl

@[simp] theorem instr_record (i : Instr) : i.record.instr = i.canonical := by cases i <;> rfl

/-- The value field holds every value below C (30_encoding R76). -/
theorem le_two_pow_valueWidth (C : Nat) : C ≤ 2 ^ valueWidth C := by
  have h := Nat.lt_log2_self (n := C - 1)
  unfold valueWidth
  omega

/-- The packed word of a valid record fits its 14 + 2W bits (30_encoding R75). -/
theorem encodeRecord_lt {C : Nat} {r : Record} (h : r.check C = none) :
    encodeRecord C r < 2 ^ (14 + 2 * valueWidth C) := by
  obtain ⟨-, ha, hb⟩ := Machine.check_eq_none.1 h
  have hW := le_two_pow_valueWidth C
  have h1 := r.op.code_lt
  have h2 := r.mod.code_lt
  have h3 := r.a.mode.code_lt
  have h4 := r.b.mode.code_lt
  simp only [encodeRecord]
  generalize valueWidth C = W at *
  have e1 : 2 ^ (2 * W + 9) = 512 * (2 ^ W * 2 ^ W) := by ring
  have e2 : 2 ^ (2 * W + 6) = 64 * (2 ^ W * 2 ^ W) := by ring
  have e3 : 2 ^ (2 * W + 3) = 8 * (2 ^ W * 2 ^ W) := by ring
  have e4 : 2 ^ (W + 3) = 8 * 2 ^ W := by ring
  have e5 : 2 ^ (14 + 2 * W) = 16384 * (2 ^ W * 2 ^ W) := by ring
  rw [e1, e2, e3, e4, e5]
  generalize 2 ^ W = X at *
  have hX : 0 < X := by omega
  have b1 : r.op.code * (512 * (X * X)) ≤ 17 * (512 * (X * X)) := Nat.mul_le_mul_right _ (by omega)
  have b2 : r.mod.code * (64 * (X * X)) ≤ 6 * (64 * (X * X)) := Nat.mul_le_mul_right _ (by omega)
  have b3 : r.a.mode.code * (8 * (X * X)) ≤ 7 * (8 * (X * X)) := Nat.mul_le_mul_right _ (by omega)
  have b4 : (r.a.value + 1) * (8 * X) ≤ X * (8 * X) := Nat.mul_le_mul_right _ (by omega)
  have b5 : r.b.mode.code * X ≤ 7 * X := Nat.mul_le_mul_right _ (by omega)
  nlinarith

end Sys2Proof
end

