-- ==== Sys2Proof/Laws/Operands.lean ====
section
/-! SUPPORT. Laws of the address resolution unit: what a resolution can do, once for all eight modes, and what both hand on. -/

namespace Sys2Proof.Machine

/-! ### Mode by mode -/

theorem resolve_immediate (C pc v : Nat) (core : CoreMem) : resolve C pc ⟨.immediate, v⟩ core = (pc, core) := rfl

theorem resolve_direct (C pc v : Nat) (core : CoreMem) :
    resolve C pc ⟨.direct, v⟩ core = (modC C (pc + v), core) := rfl

theorem resolve_indirect (C pc v : Nat) (core : CoreMem) (m : Mode) (sel : Sel)
    (h : (m, sel) = (.aIndirect, .a) ∨ (m, sel) = (.bIndirect, .b)) :
    resolve C pc ⟨m, v⟩ core = (modC C (modC C (pc + v) + valueOf (memRead C core (modC C (pc + v))) sel), core) := by
  rcases h with h | h <;> cases h <;> rfl

theorem resolve_predec (C pc v : Nat) (core : CoreMem) (m : Mode) (sel : Sel)
    (h : (m, sel) = (.aPredec, .a) ∨ (m, sel) = (.bPredec, .b)) :
    resolve C pc ⟨m, v⟩ core =
      (modC C (modC C (pc + v) + modC C ((valueOf (memRead C core (modC C (pc + v))) sel : Int) - 1)),
        memWriteValue C core (modC C (pc + v)) sel
          (modC C ((valueOf (memRead C core (modC C (pc + v))) sel : Int) - 1))) := by
  rcases h with h | h <;> cases h <;> rfl

theorem resolve_postinc (C pc v : Nat) (core : CoreMem) (m : Mode) (sel : Sel)
    (h : (m, sel) = (.aPostinc, .a) ∨ (m, sel) = (.bPostinc, .b)) :
    resolve C pc ⟨m, v⟩ core =
      (modC C (modC C (pc + v) + valueOf (memRead C core (modC C (pc + v))) sel),
        memWriteValue C core (modC C (pc + v)) sel
          (modC C (valueOf (memRead C core (modC C (pc + v))) sel + 1))) := by
  rcases h with h | h <;> cases h <;> rfl

/-- All that a resolution can do: it answers a canonical address (or, Immediate, the counter itself), and it leaves the
core as it was or writes one field value of the pointer cell, the field its mode names. -/
theorem resolve_cases (C pc : Nat) (f : InstrField) (core : CoreMem) :
    ((resolve C pc f core).1 = pc ∨ ∃ v : Int, (resolve C pc f core).1 = modC C v) ∧
      ((sideEffect f.mode = none ∧ (resolve C pc f core).2 = core) ∨
        ∃ sel v, sideEffect f.mode = some sel ∧
          (resolve C pc f core).2 = memWriteValue C core (pointerCell C pc f) sel (modC C v)) := by
  obtain ⟨mode, value⟩ := f
  cases mode
  case immediate => exact ⟨.inl rfl, .inl ⟨rfl, rfl⟩⟩
  case direct =>
    rw [resolve_direct]
    refine ⟨.inr ?_, ?_⟩
    · dsimp only; exact ⟨_, rfl⟩
    · exact .inl ⟨rfl, rfl⟩
  case aIndirect =>
    rw [resolve_indirect _ _ _ _ _ _ (.inl rfl)]
    refine ⟨.inr ?_, ?_⟩
    · dsimp only; exact ⟨_, rfl⟩
    · exact .inl ⟨rfl, rfl⟩
  case bIndirect =>
    rw [resolve_indirect _ _ _ _ _ _ (.inr rfl)]
    refine ⟨.inr ?_, ?_⟩
    · dsimp only; exact ⟨_, rfl⟩
    · exact .inl ⟨rfl, rfl⟩
  case aPredec =>
    rw [resolve_predec _ _ _ _ _ _ (.inl rfl)]
    refine ⟨.inr ?_, ?_⟩
    · dsimp only; exact ⟨_, rfl⟩
    · exact .inr ⟨_, _, rfl, rfl⟩
  case bPredec =>
    rw [resolve_predec _ _ _ _ _ _ (.inr rfl)]
    refine ⟨.inr ?_, ?_⟩
    · dsimp only; exact ⟨_, rfl⟩
    · exact .inr ⟨_, _, rfl, rfl⟩
  case aPostinc =>
    rw [resolve_postinc _ _ _ _ _ _ (.inl rfl)]
    refine ⟨.inr ?_, ?_⟩
    · dsimp only; exact ⟨_, rfl⟩
    · exact .inr ⟨_, _, rfl, rfl⟩
  case bPostinc =>
    rw [resolve_postinc _ _ _ _ _ _ (.inr rfl)]
    refine ⟨.inr ?_, ?_⟩
    · dsimp only; exact ⟨_, rfl⟩
    · exact .inr ⟨_, _, rfl, rfl⟩

/-- A resolved address is a core address where the counter is one (40_operands R128). -/
theorem resolve_fst_lt {C pc : Nat} (hC : 0 < C) (hpc : pc < C) (f : InstrField) (core : CoreMem) :
    (resolve C pc f core).1 < C := by
  rcases (resolve_cases C pc f core).1 with h | ⟨v, h⟩
  · rw [h]; exact hpc
  · rw [h]; exact modC_lt hC v

theorem resolve_wf {C pc : Nat} {core : CoreMem} (hm : sparseWf coreFill core = true) (f : InstrField) :
    sparseWf coreFill (resolve C pc f core).2 = true := by
  rcases (resolve_cases C pc f core).2 with ⟨-, h⟩ | ⟨sel, v, -, h⟩
  · rw [h]; exact hm
  · rw [h]; exact memWriteValue_wf hm _ _ _

theorem resolve_coreOk {C pc : Nat} (hC : 0 < C) {core : CoreMem} (hm : CoreOk C core) (f : InstrField) :
    CoreOk C (resolve C pc f core).2 := by
  rcases (resolve_cases C pc f core).2 with ⟨-, h⟩ | ⟨sel, v, -, h⟩
  · rw [h]; exact hm
  · rw [h]; exact memWriteValue_coreOk hC hm _ _ (modC_lt hC v)

/-- A resolution changes at most the one cell that `sideEffectCell` names. -/
theorem resolve_frame {C pc : Nat} (f : InstrField) (core : CoreMem) {x : Nat}
    (h : sideEffectCell C pc f ≠ some (x % C)) : memRead C (resolve C pc f core).2 x = memRead C core x := by
  rcases (resolve_cases C pc f core).2 with ⟨-, h1⟩ | ⟨sel, v, hs, h1⟩
  · rw [h1]
  · rw [h1]
    refine memRead_memWriteValue_other core (fun he => h ?_) sel _
    have : pointerCell C pc f % C = pointerCell C pc f := modC_mod C _
    rw [sideEffectCell, hs, he, this]
    rfl

/-- Resolution changes field values only (40_operands R124, 20_memory R55). -/
theorem resolve_sameButValues {C pc : Nat} {core : CoreMem} (hm : sparseWf coreFill core = true) (f : InstrField)
    (x : Nat) : SameButValues (memRead C core x) (memRead C (resolve C pc f core).2 x) [.a, .b] := by
  rcases (resolve_cases C pc f core).2 with ⟨-, h⟩ | ⟨sel, v, -, h⟩
  · rw [h]; exact ⟨rfl, rfl, rfl, rfl, fun _ _ => rfl⟩
  · rw [h]
    have h1 := memWriteValue_sameButValues (C := C) hm (pointerCell C pc f) sel (modC C v) x
    exact ⟨h1.op, h1.mod, h1.aMode, h1.bMode, fun g hg => by cases g <;> simp at hg⟩

/-! ### The windows -/

/-- A windowed address is a residue. -/
theorem win_eq_modC (C pc a d : Nat) : ∃ v : Int, win C pc a d = modC C v := by
  unfold win
  split
  · exact ⟨_, rfl⟩
  · exact ⟨_, rfl⟩

@[simp] theorem win_mod (C pc a d : Nat) : win C pc a d % C = win C pc a d := by
  obtain ⟨v, h⟩ := win_eq_modC C pc a d
  rw [h, modC_mod]

theorem win_lt {C : Nat} (hC : 0 < C) (pc a d : Nat) : win C pc a d < C := by
  obtain ⟨v, h⟩ := win_eq_modC C pc a d
  rw [h]; exact modC_lt hC v

/-! ### Both operands -/

theorem prepare_core (cfg : Cfg) (pc : Nat) (ir : Record) (core : CoreMem) :
    (prepare cfg pc ir core).core =
      (resolve cfg.coreSize pc ir.b (resolve cfg.coreSize pc ir.a core).2).2 := rfl

@[simp] theorem prepare_daW_mod (cfg : Cfg) (pc : Nat) (ir : Record) (core : CoreMem) :
    (prepare cfg pc ir core).daW % cfg.coreSize = (prepare cfg pc ir core).daW := win_mod _ _ _ _

@[simp] theorem prepare_saR_mod (cfg : Cfg) (pc : Nat) (ir : Record) (core : CoreMem) :
    (prepare cfg pc ir core).saR % cfg.coreSize = (prepare cfg pc ir core).saR := win_mod _ _ _ _

theorem prepare_wf {cfg : Cfg} {core : CoreMem} (hm : sparseWf coreFill core = true) (pc : Nat) (ir : Record) :
    sparseWf coreFill (prepare cfg pc ir core).core = true := resolve_wf (resolve_wf hm _) _

theorem prepare_coreOk {cfg : Cfg} (hC : 0 < cfg.coreSize) {core : CoreMem} (hm : CoreOk cfg.coreSize core) (pc : Nat)
    (ir : Record) : CoreOk cfg.coreSize (prepare cfg pc ir core).core := resolve_coreOk hC (resolve_coreOk hC hm _) _

/-- Both snapshots are valid records where the latched instruction is. -/
theorem prepare_src_check {cfg : Cfg} (hC : 0 < cfg.coreSize) {core : CoreMem} (hm : CoreOk cfg.coreSize core) (pc : Nat)
    {ir : Record} (hi : ir.check cfg.coreSize = none) : (prepare cfg pc ir core).src.check cfg.coreSize = none := by
  have h := memRead_check hC (prepare_coreOk hC hm pc ir)
  simp only [prepare]
  split
  · exact hi
  · exact h _

theorem prepare_dst_check {cfg : Cfg} (hC : 0 < cfg.coreSize) {core : CoreMem} (hm : CoreOk cfg.coreSize core) (pc : Nat)
    {ir : Record} (hi : ir.check cfg.coreSize = none) : (prepare cfg pc ir core).dst.check cfg.coreSize = none := by
  have h := memRead_check hC (prepare_coreOk hC hm pc ir)
  simp only [prepare]
  split
  · exact hi
  · exact h _

/-- Both resolutions together change at most the cells that `sideEffectCell` names. -/
theorem prepare_frame {cfg : Cfg} {pc : Nat} {ir : Record} (core : CoreMem) {x : Nat}
    (ha : sideEffectCell cfg.coreSize pc ir.a ≠ some (x % cfg.coreSize))
    (hb : sideEffectCell cfg.coreSize pc ir.b ≠ some (x % cfg.coreSize)) :
    memRead cfg.coreSize (prepare cfg pc ir core).core x = memRead cfg.coreSize core x := by
  rw [prepare_core, resolve_frame _ _ hb, resolve_frame _ _ ha]

theorem prepare_sameButValues {cfg : Cfg} {core : CoreMem} (hm : sparseWf coreFill core = true) (pc : Nat) (ir : Record)
    (x : Nat) : SameButValues (memRead cfg.coreSize core x) (memRead cfg.coreSize (prepare cfg pc ir core).core x)
      [.a, .b] := by
  have h1 := resolve_sameButValues (C := cfg.coreSize) (pc := pc) hm ir.a x
  have h2 := resolve_sameButValues (C := cfg.coreSize) (pc := pc)
    (resolve_wf (C := cfg.coreSize) (pc := pc) hm ir.a) ir.b x
  exact ⟨h2.op.trans h1.op, h2.mod.trans h1.mod, h2.aMode.trans h1.aMode, h2.bMode.trans h1.bMode,
    fun g hg => by cases g <;> simp at hg⟩

end Sys2Proof.Machine
end

