-- ==== Sys2Proof/Laws/PerInstr.lean ====
section
/-! SUPPORT. The families stated once per instruction. -/

namespace Sys2Proof.Laws.EncodingFits

/-- The packed word of a well-formed instruction fits the 14 + 2W bits of 30_encoding R75. -/
def Statement (i : Instr) : Prop :=
  ∀ C, i.WellFormed C → encode C i < 2 ^ (14 + 2 * valueWidth C)

/-- What every lemma of the family is: the bound of its record. -/
theorem statement_of_record (i : Instr) : Statement i := fun _ h =>
  encodeRecord_lt (Machine.wellFormed_iff.1 h)

theorem dat (m : Modifier) (a b : InstrField) : Statement (.dat m a b) := statement_of_record _
theorem mov (m : Modifier) (a b : InstrField) : Statement (.mov m a b) := statement_of_record _
theorem add (m : Modifier) (a b : InstrField) : Statement (.add m a b) := statement_of_record _
theorem sub (m : Modifier) (a b : InstrField) : Statement (.sub m a b) := statement_of_record _
theorem mul (m : Modifier) (a b : InstrField) : Statement (.mul m a b) := statement_of_record _
theorem div (m : Modifier) (a b : InstrField) : Statement (.div m a b) := statement_of_record _
theorem mod (m : Modifier) (a b : InstrField) : Statement (.mod m a b) := statement_of_record _
theorem jmp (m : Modifier) (a b : InstrField) : Statement (.jmp m a b) := statement_of_record _
theorem jmz (m : Modifier) (a b : InstrField) : Statement (.jmz m a b) := statement_of_record _
theorem jmn (m : Modifier) (a b : InstrField) : Statement (.jmn m a b) := statement_of_record _
theorem djn (m : Modifier) (a b : InstrField) : Statement (.djn m a b) := statement_of_record _
theorem spl (m : Modifier) (a b : InstrField) : Statement (.spl m a b) := statement_of_record _
theorem cmp (m : Modifier) (a b : InstrField) : Statement (.cmp m a b) := statement_of_record _
theorem sne (m : Modifier) (a b : InstrField) : Statement (.sne m a b) := statement_of_record _
theorem slt (m : Modifier) (a b : InstrField) : Statement (.slt m a b) := statement_of_record _
theorem ldp (m : Modifier) (a b : InstrField) : Statement (.ldp m a b) := statement_of_record _
theorem stp (m : Modifier) (a b : InstrField) : Statement (.stp m a b) := statement_of_record _
theorem nop (m : Modifier) (a b : InstrField) : Statement (.nop m a b) := statement_of_record _
theorem seq (m : Modifier) (a b : InstrField) : Statement (.seq m a b) := statement_of_record _

end Sys2Proof.Laws.EncodingFits
end

