-- ==== Sys2Proof/Laws/Setup.lean ====
section
/-! SUPPORT. What setup, the load and a round reset can do: one lemma each, and the checks in the terms the claims use. -/

namespace Sys2Proof.Machine

/-! ### Images -/

/-- A record that an image's instruction constructs is structurally valid (70_reset R306). -/
theorem readImageInstr_check {C : Nat} (hC : 0 < C) {i : ImageInstr} {r : Record} (h : readImageInstr C i = .ok r) :
    r.check C = none := by
  cases i with
  | literal op m aMode aValue bMode bValue =>
    simp only [readImageInstr] at h
    split at h
    · next hm =>
      cases h
      exact check_eq_none.mpr ⟨by simpa using hm, modC_lt hC _, modC_lt hC _⟩
    · cases h
  | packed w =>
    simp only [readImageInstr, decodeRecord] at h
    split at h
    · cases h
    · split at h
      · cases h
      · split at h
        · cases h
        · next hc => cases h; exact hc

/-- Image validation passes exactly when every instruction constructs a record. -/
theorem validateImages_eq_none {C : Nat} {images : List ProgramImage} :
    validateImages C images = none ↔ ImagesValid C images := by
  have key (i : ImageInstr) : imageInstrError C i = none ↔ ∃ r, readImageInstr C i = .ok r := by
    unfold imageInstrError
    cases readImageInstr C i <;> simp
  simp only [validateImages, List.findSome?_eq_none_iff, List.mem_flatMap, key, ImagesValid]
  exact ⟨fun h im hm i hi => h i ⟨im, hm, hi⟩, fun h i ⟨im, hm, hi⟩ => h im hm i hi⟩

/-! ### Configuration and placement -/

/-- CoreTooSmall is the opposite of `ProgramsFit`. -/
theorem coreTooSmall_eq_false {images : List ProgramImage} {ci : ConfigInput} :
    coreTooSmall images ci = false ↔ ProgramsFit ci.coreSize ci.minSeparation images := by
  match images with
  | [] => simp [coreTooSmall, lengths, ProgramsFit]
  | [im] => simp [coreTooSmall, lengths, ProgramsFit]
  | im :: im' :: rest =>
    simp [coreTooSmall, lengths, ProgramsFit, separation, Function.comp_def]

/-- The configuration passes exactly when no condition of its table holds. -/
theorem validateConfig_eq_none {images : List ProgramImage} {ci : ConfigInput} :
    validateConfig images ci = none ↔
      0 < ci.pspaceSize ∧ ProgramsFit ci.coreSize ci.minSeparation images ∧ 0 < ci.maxProcesses ∧ 0 < ci.coreSize ∧
      (2 ≤ ci.readDistance ∧ ci.readDistance ≤ ci.coreSize ∧ 2 ≤ ci.writeDistance ∧ ci.writeDistance ≤ ci.coreSize) ∧
      images ≠ [] ∧ (∀ im ∈ images, im.instructions ≠ []) ∧ (images.map (·.id)).Nodup ∧ 0 ≤ ci.maxCycles := by
  have hlen : (lengths images).any (fun len => decide (len = 0)) = true ↔ ¬ ∀ im ∈ images, im.instructions ≠ [] := by
    simp [lengths]
  rw [← coreTooSmall_eq_false]
  unfold validateConfig
  simp only [hlen]
  split_ifs <;> simp_all
  all_goals omega

/-- The placement check is 70_reset R311. -/
theorem validPlacement_iff {C : Nat} {minSep : Int} {images : List ProgramImage} {places : List Nat} :
    validPlacement C minSep images places = true ↔ PlacementRule C minSep images places := by
  have sep (x y : Nat × Nat) (hC : 0 < C) :
      separated C minSep x y = true ↔ max (x.2 : Int) minSep ≤ ((y.1 : Int) - x.1) % C := by
    rw [separated, decide_eq_true_eq, modC_cast hC, separation]
  unfold validPlacement PlacementRule placementOk
  simp only [Bool.and_eq_true, decide_eq_true_eq, List.all_eq_true, List.pairwise_iff_getElem]
  refine and_congr_right fun hl => ?_
  have hz : (places.zip (lengths images)).length = images.length := by simp [lengths, hl]
  have hrange : (∀ x ∈ places.zip (lengths images), x.1 < C) ↔ ∀ p ∈ places, (p : Int) < C := by
    constructor
    · intro h p hp
      obtain ⟨k, hk, rfl⟩ := List.getElem_of_mem hp
      have := h _ (List.getElem_mem (l := places.zip (lengths images)) (n := k) (by omega))
      simpa using this
    · intro h x hx
      exact_mod_cast h _ (List.of_mem_zip hx).1
  rw [hrange]
  refine and_congr_right fun hr => ?_
  have hC (k : Nat) (hk : k < places.length) : 0 < C := by
    have := hr _ (List.getElem_mem hk)
    omega
  constructor
  · intro h i j si sj im hij hi hsi hsj
    obtain ⟨hi1, rfl⟩ := List.getElem?_eq_some_iff.mp hi
    obtain ⟨hi2, rfl⟩ := List.getElem?_eq_some_iff.mp hsi
    obtain ⟨hj2, rfl⟩ := List.getElem?_eq_some_iff.mp hsj
    have h0 := hC i hi2
    rcases Nat.lt_or_gt_of_ne hij with hlt | hlt
    · have := (sep _ _ h0).mp (h i j (by omega) (by omega) hlt).1
      simpa [lengths] using this
    · have := (sep _ _ h0).mp (h j i (by omega) (by omega) hlt).2
      simpa [lengths] using this
  · intro h i j hi hj hlt
    have h0 := hC i (by omega)
    rw [sep _ _ h0, sep _ _ h0]
    simp only [List.getElem_zip, lengths, List.getElem_map]
    exact ⟨h i j _ _ images[i] (by omega) (by simp) (by simp) (by simp),
      h j i _ _ images[j] (by omega) (by simp) (by simp) (by simp)⟩

/-! ### Load -/

theorem loadProgram_wf {C : Nat} {core : CoreMem} (h : sparseWf coreFill core = true) (s : Nat) (rs : List Record) :
    sparseWf coreFill (loadProgram C core s rs) = true := by
  induction rs generalizing core s with
  | nil => exact h
  | cons r rs ih => exact ih (memWrite_wf h s r) (s + 1)

theorem loadProgram_coreOk {C : Nat} (hC : 0 < C) {core : CoreMem} (h : CoreOk C core) (s : Nat) {rs : List Record}
    (hr : ∀ r ∈ rs, r.check C = none) : CoreOk C (loadProgram C core s rs) := by
  induction rs generalizing core s with
  | nil => exact h
  | cons r rs ih =>
    exact ih (memWrite_coreOk hC h s (hr r (by simp))) (s + 1) fun x hx => hr x (by simp [hx])

/-- A load changes only the cells of its program. -/
theorem memRead_loadProgram_other {C : Nat} (core : CoreMem) (s : Nat) (rs : List Record) {x : Nat}
    (hx : ∀ k < rs.length, x % C ≠ (s + k) % C) : memRead C (loadProgram C core s rs) x = memRead C core x := by
  induction rs generalizing core s with
  | nil => rfl
  | cons r rs ih =>
    rw [loadProgram, ih _ _ fun k hk => by simpa [Nat.add_assoc, Nat.add_comm 1] using hx (k + 1) (by simpa using hk)]
    exact memRead_memWrite_other core (by simpa using hx 0 (by simp)) r

/-- A load of a program no longer than the core puts its k-th record k cells behind its load address. -/
theorem memRead_loadProgram {C : Nat} {core : CoreMem} (h : sparseWf coreFill core = true) (s : Nat) (rs : List Record)
    (hlen : rs.length ≤ C) {k : Nat} {r : Record} (hk : rs[k]? = some r) :
    memRead C (loadProgram C core s rs) (s + k) = r := by
  induction rs generalizing core s k with
  | nil => simp at hk
  | cons r' rs ih =>
    rw [loadProgram]
    cases k with
    | zero =>
      obtain rfl : r' = r := by simpa using hk
      rw [memRead_loadProgram_other]
      · exact memRead_memWrite_same h rfl r'
      · intro k hk' he
        simp only [List.length_cons] at hlen
        have := (Nat.modEq_iff_dvd' (by omega)).mp (show s + 0 ≡ s + 1 + k [MOD C] from he)
        exact absurd (Nat.le_of_dvd (by omega) this) (by omega)
    | succ k =>
      have := ih (memWrite_wf (C := C) h s r') (s + 1) (by simp only [List.length_cons] at hlen; omega) (k := k) (by simpa using hk)
      rwa [show s + 1 + k = s + (k + 1) by omega] at this

/-! ### Match reset and round reset -/

/-- When setup answers, and all that it answers. -/
theorem setup_eq_ok {images : List ProgramImage} {ci : ConfigInput} {places : List Nat} {s : State} :
    setup images ci places = .ok s ↔
      ImagesValid ci.coreSize.toNat images ∧ validateConfig images ci = none ∧
      PlacementRule ci.coreSize.toNat ci.minSeparation images places ∧
      s = evaluateEnd
        { cfg := ci.cfg
          core := loadAll ci.cfg.coreSize [] (images.zip places)
          warriors := (images.zip places).map fun p => { id := p.1.id, queue := [p.2], pspace := [] }
          cycleCount := 0
          turnPtr := 0
          n0 := images.length
          status := .running } := by
  rw [← validateImages_eq_none, ← validPlacement_iff]
  unfold setup
  cases validateImages ci.coreSize.toNat images with
  | some e => simp only [reduceCtorEq, false_and]
  | none =>
    cases validateConfig images ci with
    | some e => simp only [reduceCtorEq, false_and, and_false]
    | none =>
      by_cases hp : validPlacement ci.coreSize.toNat ci.minSeparation images places = true
      · simp only [ConfigInput.cfg, hp, if_true, true_and, Except.ok.injEq]
        exact eq_comm
      · simp only [ConfigInput.cfg, hp, if_false, true_and, reduceCtorEq, false_and]

/-- When a round reset answers, and all that it answers. -/
theorem newRound_eq_ok {images : List ProgramImage} {places : List Nat} {s s' : State} :
    newRound images places s = .ok s' ↔
      ImagesValid s.cfg.coreSize images ∧ validateConfig images (configInput s.cfg) = none ∧
      PlacementRule s.cfg.coreSize s.cfg.minSeparation images places ∧ images.length = s.warriors.length ∧
      s' = evaluateEnd
        { s with
          core := loadAll s.cfg.coreSize [] (images.zip places)
          warriors := (s.warriors.zip places).map fun p => { p.1 with queue := [p.2] }
          cycleCount := 0
          turnPtr := 0 } := by
  rw [← validateImages_eq_none, ← validPlacement_iff]
  unfold newRound
  cases validateImages s.cfg.coreSize images with
  | some e => simp only [reduceCtorEq, false_and]
  | none =>
    cases validateConfig images (configInput s.cfg) with
    | some e => simp only [reduceCtorEq, false_and, and_false]
    | none =>
      by_cases hp : validPlacement s.cfg.coreSize s.cfg.minSeparation images places = true ∧
          images.length = s.warriors.length
      · simp only [hp.1, hp.2, and_self, if_true, true_and, Except.ok.injEq]
        exact eq_comm
      · simp only [if_neg hp, true_and, reduceCtorEq, false_iff]
        exact fun ⟨h1, h2, _⟩ => hp ⟨h1, h2⟩

end Sys2Proof.Machine
end

