-- ==== Sys2Proof/Laws/Warriors.lean ====
section
/-! SUPPORT. Laws of queues, p-spaces and the scheduler: what an update of one warrior does to each, and whose turn it is. -/

namespace Sys2Proof.Machine

/-! ### Queues and p-spaces -/

theorem queueOf_eq (s : State) (w : Nat) : queueOf s w = ((s.warriors[w]?).map (·.queue)).getD [] := by
  unfold queueOf
  cases s.warriors[w]? <;> rfl

theorem pspaceOf_eq (s : State) (w : Nat) : pspaceOf s w = ((s.warriors[w]?).map (·.pspace)).getD [] := by
  unfold pspaceOf
  cases s.warriors[w]? <;> rfl

/-- Queues depend on the warriors alone. -/
theorem queueOf_congr {s s' : State} (h : s'.warriors = s.warriors) (w : Nat) : queueOf s' w = queueOf s w := by
  unfold queueOf; rw [h]

theorem pspaceOf_congr {s s' : State} (h : s'.warriors = s.warriors) (w : Nat) : pspaceOf s' w = pspaceOf s w := by
  unfold pspaceOf; rw [h]

theorem lt_of_queueOf_ne_nil {s : State} {w : Nat} (h : queueOf s w ≠ []) : w < s.warriors.length := by
  by_contra hw
  apply h
  unfold queueOf
  rw [List.getElem?_eq_none (by omega)]

theorem queueOf_updateWarrior_other (s : State) {w v : Nat} (h : v ≠ w) (f : Warrior → Warrior) :
    queueOf (updateWarrior s w f) v = queueOf s v := by
  simp [queueOf_eq, h.symm]

theorem queueOf_setQueue_same {s : State} {w : Nat} (h : w < s.warriors.length) (q : List Nat) :
    queueOf (setQueue s w q) w = q := by
  simp [queueOf_eq, List.getElem?_eq_getElem h]

theorem queueOf_setQueue_other (s : State) {w v : Nat} (h : v ≠ w) (q : List Nat) :
    queueOf (setQueue s w q) v = queueOf s v := queueOf_updateWarrior_other s h _

theorem queueOf_pWrite (s : State) (w i v u : Nat) : queueOf (pWrite s w i v) u = queueOf s u := by
  by_cases h : u = w
  · subst h
    simp only [queueOf_eq, pWrite, updateWarrior_warriors, List.getElem?_modify]
    cases s.warriors[u]? <;> simp
  · exact queueOf_updateWarrior_other s h _

/-- Setting a queue twice is setting it once. -/
theorem setQueue_setQueue (s : State) (w : Nat) (p q : List Nat) : setQueue (setQueue s w p) w q = setQueue s w q := by
  simp only [setQueue, updateWarrior, State.mk.injEq, true_and, and_true]
  apply List.ext_getElem?
  intro i
  simp only [List.getElem?_modify]
  cases s.warriors[i]? <;> by_cases h : w = i <;> simp [h]

theorem enqueue_setQueue {s : State} {w : Nat} (h : w < s.warriors.length) (q : List Nat) (p : Nat) :
    enqueue (setQueue s w q) w p = setQueue s w (q ++ [p % s.cfg.coreSize]) := by
  rw [enqueue, queueOf_setQueue_same h, setQueue_setQueue, modC_natCast]
  rfl

/-- The counters that an outcome leaves in the queue (40_operands R127). -/
def requeued (C : Nat) : TurnOut → List Nat
  | .next p => [p % C]
  | .split p t => [p % C, t % C]
  | .death _ => []

/-- All that the end of a turn does: the outcome's counters go to the back of the warrior's own queue
(40_operands R100, R127; 60_exceptions R242). -/
theorem endTurn_setQueue {s : State} {w : Nat} (h : w < s.warriors.length) (q : List Nat) (out : TurnOut) :
    endTurn (setQueue s w q) w out = setQueue s w (q ++ requeued s.cfg.coreSize out) := by
  cases out with
  | next p => exact enqueue_setQueue h q p
  | split p t =>
    rw [endTurn, enqueue_setQueue h, enqueue_setQueue h, List.append_assoc]
    rfl
  | death c => simp [endTurn, raiseDeath, requeued]

theorem setQueue_queueOf (s : State) (w : Nat) : setQueue s w (queueOf s w) = s := by
  obtain ⟨cfg, core, ws, c, t, n, st⟩ := s
  simp only [setQueue, updateWarrior, State.mk.injEq, true_and, and_true]
  apply List.ext_getElem?
  intro i
  simp only [List.getElem?_modify, queueOf]
  by_cases h : w = i
  · subst h
    cases ws[w]? <;> simp
  · simp [h]

/-- The end of a turn in any state: the outcome's counters behind what the queue holds. -/
theorem endTurn_eq {s : State} {w : Nat} (h : w < s.warriors.length) (out : TurnOut) :
    endTurn s w out = setQueue s w (queueOf s w ++ requeued s.cfg.coreSize out) := by
  have := endTurn_setQueue h (queueOf s w) out
  rwa [setQueue_queueOf] at this

/-! ### Whose turn it is -/

theorem isActive_iff {s : State} {w : Nat} : isActive s w = true ↔ queueOf s w ≠ [] := by
  unfold isActive
  cases queueOf s w <;> simp

/-- The next Active warrior is the least one at or after the cursor (60_exceptions R262). -/
theorem nextActive_eq_some {s : State} {w : Nat} :
    nextActive s = some w ↔
      s.turnPtr ≤ w ∧ isActive s w = true ∧ ∀ i, s.turnPtr ≤ i → i < w → isActive s i = false := by
  unfold nextActive
  rw [List.find?_range_eq_some]
  simp only [Bool.and_eq_true, decide_eq_true_eq, List.mem_range, Bool.not_eq_true', Bool.and_eq_false_iff,
    decide_eq_false_iff_not]
  constructor
  · rintro ⟨⟨h1, h2⟩, -, h4⟩
    exact ⟨h1, h2, fun i hi hw => (h4 i hw).resolve_left (by omega)⟩
  · rintro ⟨h1, h2, h3⟩
    refine ⟨⟨h1, h2⟩, lt_of_queueOf_ne_nil (isActive_iff.1 h2), fun i hi => ?_⟩
    by_cases h : s.turnPtr ≤ i
    · exact .inr (h3 i h hi)
    · exact .inl h

theorem nextActive_eq_none {s : State} :
    nextActive s = none ↔ ∀ i, s.turnPtr ≤ i → isActive s i = false := by
  unfold nextActive
  rw [List.find?_eq_none]
  constructor
  · intro h i hi
    by_contra ha
    simp only [Bool.not_eq_false] at ha
    have := h i (List.mem_range.2 (lt_of_queueOf_ne_nil (isActive_iff.1 ha)))
    simp [hi, ha] at this
  · intro h i _
    by_cases hi : s.turnPtr ≤ i
    · simp [h i hi]
    · simp [hi]

/-- The front process: the next Active warrior, its front counter, and the counters behind it. -/
theorem frontProcess_eq_some {s : State} {w pc : Nat} {rest : List Nat} :
    frontProcess s = some (w, pc, rest) ↔ nextActive s = some w ∧ queueOf s w = pc :: rest := by
  unfold frontProcess
  cases h : nextActive s with
  | none => simp
  | some v =>
    simp only [Option.some.injEq]
    constructor
    · intro h1
      cases h2 : queueOf s v with
      | nil => simp [h2] at h1
      | cons p q =>
        simp only [h2, Option.some.injEq, Prod.mk.injEq] at h1
        obtain ⟨rfl, rfl, rfl⟩ := h1
        exact ⟨rfl, h2⟩
    · rintro ⟨rfl, h2⟩
      simp [h2]

theorem frontProcess_eq_none {s : State} : frontProcess s = none ↔ nextActive s = none := by
  unfold frontProcess
  cases h : nextActive s with
  | none => simp
  | some v =>
    have := isActive_iff.1 (nextActive_eq_some.1 h).2.1
    cases h2 : queueOf s v with
    | nil => exact absurd h2 this
    | cons p q => simp [h2]

theorem frontProcess_lt {s : State} {w pc : Nat} {rest : List Nat} (h : frontProcess s = some (w, pc, rest)) :
    w < s.warriors.length :=
  lt_of_queueOf_ne_nil (by rw [(frontProcess_eq_some.1 h).2]; simp)

/-- Whose turn it is depends on the warriors and the cursor alone. -/
theorem frontProcess_congr {s s' : State} (hw : s'.warriors = s.warriors) (ht : s'.turnPtr = s.turnPtr) :
    frontProcess s' = frontProcess s := by
  have hq : ∀ w, queueOf s' w = queueOf s w := queueOf_congr hw
  have hn : nextActive s' = nextActive s := by
    unfold nextActive isActive
    simp only [hw, ht, hq]
  unfold frontProcess
  simp only [hn, hq]

@[simp] theorem frontProcess_beginPass (s : State) : frontProcess (beginPass s) = frontProcess s :=
  frontProcess_congr (by simp) (by simp)

theorem laterActive_iff {s : State} {w : Nat} :
    laterActive s w = true ↔ ∃ i, w < i ∧ isActive s i = true := by
  unfold laterActive
  rw [List.any_eq_true]
  constructor
  · rintro ⟨i, -, h⟩
    simp only [Bool.and_eq_true, decide_eq_true_eq] at h
    exact ⟨i, h⟩
  · rintro ⟨i, h1, h2⟩
    exact ⟨i, List.mem_range.2 (lt_of_queueOf_ne_nil (isActive_iff.1 h2)), by simp [h1, h2]⟩

end Sys2Proof.Machine
end

