-- ==== Sys2Proof/Laws/Turn.lean ====
section
/-! SUPPORT. One inversion lemma for a turn, one for the execution unit: every instruction's meaning goes through them. -/

namespace Sys2Proof.Machine

/-! ### The turn -/

theorem openTurn_eq {ir : Record} {s : State} {w pc : Nat} {rest : List Nat}
    (h : frontProcess s = some (w, pc, rest)) :
    openTurn ir s =
      some ({ w := w, pc := pc, cnt := rest.length + 1, ir := ir, o := operandsOf s pc ir },
        setCore (setQueue s w rest) (operandsOf s pc ir).core) := by
  rw [openTurn, h]

theorem openTurn_eq_none {ir : Record} {s : State} : openTurn ir s = none ↔ frontProcess s = none := by
  cases h : frontProcess s with
  | none => simp [openTurn, h]
  | some p => simp [openTurn, h]

/-- The turn of a front process: what `runTurn` answers for a valid instruction. -/
theorem runTurn_eq {ir : Record} {unit : Turn → State → State × TurnOut} {s : State} {w pc : Nat} {rest : List Nat}
    (hi : ir.check s.cfg.coreSize = none) (h : frontProcess s = some (w, pc, rest)) :
    runTurn ir unit s =
      .next (endTurn
        (unit { w := w, pc := pc, cnt := rest.length + 1, ir := ir, o := operandsOf s pc ir }
          (setCore (setQueue s w rest) (operandsOf s pc ir).core)).1 w
        (unit { w := w, pc := pc, cnt := rest.length + 1, ir := ir, o := operandsOf s pc ir }
          (setCore (setQueue s w rest) (operandsOf s pc ir).core)).2) := by
  rw [runTurn, hi, openTurn_eq h]

/-- All that a turn can answer with: a next state, where there is a process and the instruction is valid; else a
stop, by name. -/
theorem runTurn_cases (ir : Record) (unit : Turn → State → State × TurnOut) (s : State) :
    (∃ e, ir.check s.cfg.coreSize = some e ∧ runTurn ir unit s = .refused (.invalidInstruction e)) ∨
      (ir.check s.cfg.coreSize = none ∧ frontProcess s = none ∧ runTurn ir unit s = .fault .noActiveProcess) ∨
      ∃ w pc rest, ir.check s.cfg.coreSize = none ∧ frontProcess s = some (w, pc, rest) ∧
        ∃ s', runTurn ir unit s = .next s' := by
  cases hi : ir.check s.cfg.coreSize with
  | some e => exact .inl ⟨e, rfl, by rw [runTurn, hi]⟩
  | none =>
    cases hf : frontProcess s with
    | none =>
      refine .inr (.inl ⟨rfl, rfl, ?_⟩)
      rw [runTurn, hi, openTurn_eq_none.2 hf]
    | some p =>
      obtain ⟨w, pc, rest⟩ := p
      exact .inr (.inr ⟨w, pc, rest, rfl, rfl, _, runTurn_eq hi hf⟩)

/-- Every meaning is a turn of its record through its opcode's execute phase. -/
theorem exec_eq_runTurn (i : Instr) (s : State) : exec i s = runTurn i.record (executeUnit i.record.op) s := by
  cases i <;> rfl

/-- If `exec` answers a next state, the instruction was valid, some warrior had a process, and the next state is the end
of that turn. -/
theorem exec_next {i : Instr} {s s' : State} (h : exec i s = .next s') :
    i.record.check s.cfg.coreSize = none ∧ ∃ w pc rest, frontProcess s = some (w, pc, rest) ∧
      s' = endTurn
        (executeUnit i.record.op { w := w, pc := pc, cnt := rest.length + 1, ir := i.record, o := operandsOf s pc i.record }
          (setCore (setQueue s w rest) (operandsOf s pc i.record).core)).1 w
        (executeUnit i.record.op { w := w, pc := pc, cnt := rest.length + 1, ir := i.record, o := operandsOf s pc i.record }
          (setCore (setQueue s w rest) (operandsOf s pc i.record).core)).2 := by
  rw [exec_eq_runTurn] at h
  rcases runTurn_cases i.record (executeUnit i.record.op) s with ⟨e, -, h1⟩ | ⟨-, -, h1⟩ | ⟨w, pc, rest, hi, hf, -⟩
  · simp [h1] at h
  · simp [h1] at h
  · rw [runTurn_eq hi hf] at h
    exact ⟨hi, w, pc, rest, hf, by simpa using h.symm⟩

/-! ### The execution unit -/

/-- What an execute phase can do to the state: write field values of the target cell, or the whole source record there
(MOV.I), or one p-space cell of its own warrior (STP), or nothing. -/
inductive UnitWrites (t : Turn) (s : State) : State → Prop
  | none : UnitWrites t s s
  | values (l : List (Sel × Nat)) (h : ∀ p ∈ l, 0 < s.cfg.coreSize →
      t.o.dst.check s.cfg.coreSize = .none → t.o.src.check s.cfg.coreSize = .none → p.2 < s.cfg.coreSize) :
      UnitWrites t s (writeValues s t.o.daW l)
  | record (h : t.ir.op = .mov ∧ t.ir.mod = .i) : UnitWrites t s (writeCell s t.o.daW t.o.src)
  | pspace (f : Sel) (h : t.ir.op = .stp) : UnitWrites t s (pWrite s t.w (pspaceIndex t.ir t.o) (valueOf t.o.src f))

theorem writtenResults_mem {l : List (Sel × Option Nat)} {p : Sel × Nat} (h : p ∈ writtenResults l) :
    (p.1, some p.2) ∈ l := by
  induction l with
  | nil => simp [writtenResults] at h
  | cons q l ih =>
    obtain ⟨f, v⟩ := q
    cases v with
    | none => exact List.mem_cons_of_mem _ (ih h)
    | some v =>
      rcases List.mem_cons.1 h with rfl | h
      · simp
      · exact List.mem_cons_of_mem _ (ih h)

/-- A law whose results stay in `[0, C)` (42_arithmetic R150). -/
def LawBounded (law : Nat → Nat → Nat → Option Nat) : Prop :=
  ∀ C x y v, 0 < C → x < C → law C x y = some v → v < C

theorem addLaw_bounded : LawBounded addLaw := fun C x y v hC _ h => by
  simp only [addLaw, Option.some.injEq] at h; rw [← h]; exact modC_lt hC _
theorem subLaw_bounded : LawBounded subLaw := fun C x y v hC _ h => by
  simp only [subLaw, Option.some.injEq] at h; rw [← h]; exact modC_lt hC _
theorem mulLaw_bounded : LawBounded mulLaw := fun C x y v hC _ h => by
  simp only [mulLaw, Option.some.injEq] at h; rw [← h]; exact modC_lt hC _
theorem divLaw_bounded : LawBounded divLaw := fun C x y v _ hx h => by
  unfold divLaw at h
  split at h
  · simp at h
  · simp only [Option.some.injEq] at h
    rw [← h]; exact lt_of_le_of_lt (Nat.div_le_self x y) hx
theorem remLaw_bounded : LawBounded remLaw := fun C x y v _ hx h => by
  unfold remLaw at h
  split at h
  · simp at h
  · simp only [Option.some.injEq] at h
    rw [← h]; exact lt_of_le_of_lt (Nat.mod_le x y) hx

theorem arithUnit_writes {law : Nat → Nat → Nat → Option Nat} (hlaw : LawBounded law) (t : Turn) (s : State) :
    UnitWrites t s (arithUnit law t s).1 := by
  refine .values _ fun p hp hC hd _ => ?_
  obtain ⟨q, -, hq⟩ := List.mem_map.1 (writtenResults_mem hp)
  simp only [Prod.mk.injEq] at hq
  exact hlaw _ _ _ _ hC (valueOf_lt hd q.2) hq.2

/-- All that any instruction's execute phase can write. -/
theorem executeUnit_writes (t : Turn) (s : State) (op : Opcode) (hop : t.ir.op = op) :
    UnitWrites t s (executeUnit op t s).1 := by
  cases op
  case mov =>
    simp only [executeUnit, movUnit]
    split
    · rename_i h; exact .record ⟨hop, h⟩
    · refine .values _ fun p hp _ _ hs => ?_
      obtain ⟨q, -, rfl⟩ := List.mem_map.1 hp
      exact valueOf_lt hs q.1
  case add => exact arithUnit_writes addLaw_bounded t s
  case sub => exact arithUnit_writes subLaw_bounded t s
  case mul => exact arithUnit_writes mulLaw_bounded t s
  case div => exact arithUnit_writes divLaw_bounded t s
  case mod => exact arithUnit_writes remLaw_bounded t s
  case djn =>
    refine .values _ fun p hp hC _ _ => ?_
    obtain ⟨f, -, rfl⟩ := List.mem_map.1 hp
    exact modC_lt hC _
  case ldp =>
    exact .values [(destLetter t.ir.mod, modC s.cfg.coreSize (pRead s t.w (pspaceIndex t.ir t.o)))]
      fun p hp hC _ _ => by
        rw [List.mem_singleton] at hp
        subst hp
        exact modC_lt hC (pRead s t.w (pspaceIndex t.ir t.o) : Int)
  case stp => exact .pspace _ hop
  all_goals exact .none

/-- What any instruction's execute phase leaves: the bookkeeping, and every queue. -/
theorem UnitWrites.frame {t : Turn} {s s' : State} (h : UnitWrites t s s') :
    SameBookkeeping s s' ∧ (∀ v, queueOf s' v = queueOf s v) ∧ s'.warriors.length = s.warriors.length := by
  cases h with
  | none => exact ⟨⟨rfl, rfl, rfl, rfl, rfl⟩, fun _ => rfl, rfl⟩
  | values l _ => exact ⟨⟨by simp, by simp, by simp, by simp, by simp⟩, fun v => queueOf_congr (by simp) v, by simp⟩
  | record _ => exact ⟨⟨rfl, rfl, rfl, rfl, rfl⟩, fun v => queueOf_congr rfl v, rfl⟩
  | pspace f _ => exact ⟨⟨rfl, rfl, rfl, rfl, rfl⟩, fun v => queueOf_pWrite _ _ _ _ v, by simp [pWrite]⟩

/-- Every execute phase keeps the core legal where its snapshots are valid records. -/
theorem UnitWrites.coreOk {t : Turn} {s s' : State} (h : UnitWrites t s s') (hC : 0 < s.cfg.coreSize)
    (hm : CoreOk s.cfg.coreSize s.core) (hs : t.o.src.check s.cfg.coreSize = .none)
    (hd : t.o.dst.check s.cfg.coreSize = .none) : CoreOk s.cfg.coreSize s'.core := by
  cases h with
  | none => exact hm
  | values l hl => exact writeValues_coreOk hC hm _ fun p hp => hl p hp hC hd hs
  | record _ => exact memWrite_coreOk hC hm _ hs
  | pspace f _ => exact hm

/-- Every execute phase keeps every other cell than its target. -/
theorem UnitWrites.readCell_other {t : Turn} {s s' : State} (h : UnitWrites t s s') {x : Nat}
    (hx : x % s.cfg.coreSize ≠ t.o.daW % s.cfg.coreSize) : readCell s' x = readCell s x := by
  cases h with
  | none => rfl
  | values l _ => exact readCell_writeValues_other s hx l
  | record _ => exact memRead_memWrite_other s.core hx _
  | pspace f _ => rfl

end Sys2Proof.Machine
end

