-- ==== Sys2Proof/Tests/Slice0.lean ====
section
/-! SUPPORT. Tests: refusals of WellFormed, the spec's words and single-turn vectors (95_test_vectors), and a witness for every statement with hypotheses. -/

namespace Sys2Proof.Tests

open Sys2Proof Sys2Proof.Machine

/-! ## Helpers -/

def imm (v : Nat) : InstrField := ⟨.immediate, v⟩
def dir (v : Nat) : InstrField := ⟨.direct, v⟩
def aInd (v : Nat) : InstrField := ⟨.aIndirect, v⟩
def bInd (v : Nat) : InstrField := ⟨.bIndirect, v⟩
def aDec (v : Nat) : InstrField := ⟨.aPredec, v⟩
def bDec (v : Nat) : InstrField := ⟨.bPredec, v⟩
def aInc (v : Nat) : InstrField := ⟨.aPostinc, v⟩
def bInc (v : Nat) : InstrField := ⟨.bPostinc, v⟩

/-- The settings of 95_test_vectors "Conventions", with both windows and the process limit as given. -/
def cfgOf (d maxp : Nat) : Cfg := ⟨8000, d, d, maxp, 500, 100, 0⟩

/-- One warrior with the given core, queue and p-space. -/
def oneWarrior (c : Cfg) (core : CoreMem) (q : List Nat) (ps : Sparse Nat) : State :=
  ⟨c, core, [⟨0, q, ps⟩], 0, 0, 1, .running⟩

/-- No window, MAXP 8000. -/
def alone (core : CoreMem) (q : List Nat) : State := oneWarrior (cfgOf 8000 8000) core q []

/-- After a turn: the queue, and the cell at `x`. -/
def seen (x : Nat) : Host.Outcome State Fault Refusal → Option (List Nat × Record)
  | .next s => some (queueOf s 0, readCell s x)
  | _ => none

/-- After a turn: the queue, and the p-space cell at `i`. -/
def seenP (i : Nat) : Host.Outcome State Fault Refusal → Option (List Nat × Nat)
  | .next s => some (queueOf s 0, pRead s 0 i)
  | _ => none

/-- After a turn: the status and the pass counter. -/
def ended : Host.Outcome State Fault Refusal → Option (Status × Nat)
  | .next s => some (s.status, s.cycleCount)
  | _ => none

/-! ## WellFormed: an ill-formed term for each check, refused -/

theorem test_wf_refuses_combination : ¬ (Instr.add .i (imm 0) (imm 0)).WellFormed 8000 := by decide
theorem test_wf_refuses_a_value : ¬ (Instr.mov .i (dir 8000) (dir 0)).WellFormed 8000 := by decide
theorem test_wf_refuses_b_value : ¬ (Instr.mov .i (dir 0) (dir 8000)).WellFormed 8000 := by decide
theorem test_wf_accepts_last_value : (Instr.mov .i (dir 7999) (dir 7999)).WellFormed 8000 := by decide

/-! ## Decoding: one word of every opcode, from 95_test_vectors C1 (C = 8000); SEQ's word is CMP's (T-SEQ-1) -/

theorem test_decode_dat : decodeTableWord 40 0x0400000001 = some (.dat .f (imm 0) (imm 1)) := by decide
theorem test_decode_mov : decodeTableWord 40 0x0E20002001 = some (.mov .i (dir 0) (dir 1)) := by decide
theorem test_decode_mov2 : decodeTableWord 40 0x09A000A000 = some (.mov .b (bDec 0) (bDec 0)) := by decide
theorem test_decode_add : decodeTableWord 40 0x1200042003 = some (.add .ab (imm 4) (dir 3)) := by decide
theorem test_decode_sub : decodeTableWord 40 0x1A0001A001 = some (.sub .ab (imm 1) (bDec 1)) := by decide
theorem test_decode_mul : decodeTableWord 40 0x2120052005 = some (.mul .b (dir 5) (dir 5)) := by decide
theorem test_decode_div : decodeTableWord 40 0x2C20012002 = some (.div .f (dir 1) (dir 2)) := by decide
theorem test_decode_mod : decodeTableWord 40 0x3200072001 = some (.mod .ab (imm 7) (dir 1)) := by decide
theorem test_decode_jmp : decodeTableWord 40 0x383F3E2000 = some (.jmp .a (dir 7998) (dir 0)) := by decide
theorem test_decode_jmp2 : decodeTableWord 40 0x3940022000 = some (.jmp .b (aInd 2) (dir 0)) := by decide
theorem test_decode_jmz : decodeTableWord 40 0x4120032001 = some (.jmz .b (dir 3) (dir 1)) := by decide
theorem test_decode_jmn : decodeTableWord 40 0x4C3F3F2001 = some (.jmn .f (dir 7999) (dir 1)) := by decide
theorem test_decode_djn : decodeTableWord 40 0x513F3F2001 = some (.djn .b (dir 7999) (dir 1)) := by decide
theorem test_decode_spl : decodeTableWord 40 0x5920022000 = some (.spl .b (dir 2) (dir 0)) := by decide
theorem test_decode_cmp : decodeTableWord 40 0x6620012002 = some (.cmp .i (dir 1) (dir 2)) := by decide
theorem test_decode_sne : decodeTableWord 40 0x6800052001 = some (.sne .a (imm 5) (dir 1)) := by decide
theorem test_decode_slt : decodeTableWord 40 0x7200032001 = some (.slt .ab (imm 3) (dir 1)) := by decide
theorem test_decode_ldp : decodeTableWord 40 0x7900000007 = some (.ldp .b (imm 0) (imm 7)) := by decide
theorem test_decode_stp : decodeTableWord 40 0x82002A0007 = some (.stp .ab (imm 42) (imm 7)) := by decide
theorem test_decode_nop : decodeTableWord 40 0x8C20002000 = some (.nop .f (dir 0) (dir 0)) := by decide
theorem test_decode_mov3 : decodeTableWord 40 0x0AC001C001 = some (.mov .ab (aInc 1) (aInc 1)) := by decide
theorem test_decode_mov4 : decodeTableWord 40 0x0880018001 = some (.mov .a (aDec 1) (aDec 1)) := by decide
theorem test_decode_mov5 : decodeTableWord 40 0x09E001E001 = some (.mov .b (bInc 1) (bInc 1)) := by decide
theorem test_decode_mov6 : decodeTableWord 40 0x0E20026002 = some (.mov .i (dir 2) (bInd 2)) := by decide
theorem test_encode_seq : encode 8000 (.seq .i (dir 1) (dir 2)) = 0x6620012002 := by decide

/-! The worked bit layout of 30_encoding E1 and C1, field by field: opcode, modifier, A-mode, A-value, B-mode, B-value. -/

theorem test_encode_layout : encode 8000 (.mov .i (dir 0) (dir 1)) =
    0b00001_110_001_0000000000000_001_0000000000001 := by decide
theorem test_encode_core_of_nine : encode 9 (.dat .f (imm 0) (imm 8)) = 0x010008 := by decide
theorem test_encode_core_of_eight : encode 8 (.dat .f (imm 0) (imm 7)) = 0x04007 := by decide

/-! Invalid words, 95_test_vectors C2 (T-DEC-1 to T-DEC-9). -/

/-- The cause a word is refused for. -/
def refusal (w : Nat) : Option ValidationError :=
  match decodeRecord 8000 w with
  | .ok _ => none
  | .error e => some e

theorem test_dec_1 : refusal 0x9000000000 = some .badOpcode := by decide
theorem test_dec_2 : refusal 0xF800000000 = some .badOpcode := by decide
theorem test_dec_3 : refusal 0x0700000000 = some .badModifier := by decide
theorem test_dec_4 : refusal 0x1600000000 = some .badCombination := by decide
theorem test_dec_5 : refusal 0x7C00000000 = some .badCombination := by decide
theorem test_dec_6 : refusal 0x0400001F40 = some .badValue := by decide
theorem test_dec_7 : refusal 0x041F400000 = some .badValue := by decide
theorem test_dec_8 : refusal 0x9700000000 = some .badOpcode := by decide
theorem test_dec_9 : refusal 0x0400001FFF = some .badValue := by decide
theorem test_dec_10 : refusal 0x0400001F3F = none := by decide

/-! ## One turn, from 95_test_vectors B; the vector's number stands in the name -/

theorem test_dat_1 : seen 10 (step (alone [(10, ⟨.dat, .f, imm 0, imm 0⟩)] [10, 30])) =
    some ([30], ⟨.dat, .f, imm 0, imm 0⟩) := by decide
theorem test_dat_2 : seen 11 (step (alone [(10, ⟨.dat, .f, bDec 1, bInc 2⟩)] [10])) =
    some ([], ⟨.dat, .f, imm 0, imm 7999⟩) := by decide
theorem test_mov_x : seen 12 (step (alone [(10, ⟨.mov, .x, dir 1, dir 2⟩), (11, ⟨.dat, .f, imm 3, imm 4⟩), (12, ⟨.jmp, .b, aInd 7, bInc 9⟩)] [10])) =
    some ([11], ⟨.jmp, .b, aInd 4, bInc 3⟩) := by decide
theorem test_ord_1 : seen 15 (step (alone [(10, ⟨.mov, .i, bDec 2, bDec 2⟩), (12, ⟨.dat, .f, imm 0, imm 5⟩), (15, ⟨.nop, .f, dir 1, dir 1⟩), (16, ⟨.spl, .b, dir 2, dir 2⟩)] [10])) =
    some ([11], ⟨.spl, .b, dir 2, dir 2⟩) := by decide
theorem test_add_31 : seen 11 (step (alone [(10, ⟨.add, .ab, imm 1, dir 1⟩), (11, ⟨.dat, .f, imm 0, imm 7999⟩)] [10])) =
    some ([11], ⟨.dat, .f, imm 0, imm 0⟩) := by decide
theorem test_add_ord_7 : seen 11 (step (alone [(10, ⟨.add, .x, dir 1, dir 1⟩), (11, ⟨.dat, .f, imm 2, imm 5⟩)] [10])) =
    some ([11], ⟨.dat, .f, imm 7, imm 7⟩) := by decide
theorem test_sub_34 : seen 11 (step (alone [(10, ⟨.sub, .ab, imm 5, dir 1⟩), (11, ⟨.dat, .f, imm 0, imm 3⟩)] [10])) =
    some ([11], ⟨.dat, .f, imm 0, imm 7998⟩) := by decide
theorem test_sub_44 : seen 2 (step (alone [(0, ⟨.sub, .ab, imm 1, bDec 1⟩), (1, ⟨.dat, .f, imm 0, imm 2⟩)] [0])) =
    some ([1], ⟨.dat, .f, imm 0, imm 7999⟩) := by decide
theorem test_mul_36 : seen 11 (step (alone [(10, ⟨.mul, .ab, imm 7999, dir 1⟩), (11, ⟨.dat, .f, imm 0, imm 7999⟩)] [10])) =
    some ([11], ⟨.dat, .f, imm 0, imm 1⟩) := by decide
theorem test_mul_18 : seen 12 (step (alone [(10, ⟨.mul, .x, dir 1, dir 2⟩), (11, ⟨.dat, .f, imm 3, imm 4⟩), (12, ⟨.dat, .f, imm 10, imm 20⟩)] [10])) =
    some ([11], ⟨.dat, .f, imm 40, imm 60⟩) := by decide
theorem test_div_24 : seen 12 (step (alone [(10, ⟨.div, .x, dir 1, dir 2⟩), (11, ⟨.dat, .f, imm 3, imm 4⟩), (12, ⟨.dat, .f, imm 10, imm 20⟩)] [10])) =
    some ([11], ⟨.dat, .f, imm 2, imm 6⟩) := by decide
theorem test_div0_4 : seen 12 (step (alone [(10, ⟨.div, .x, dir 1, dir 2⟩), (11, ⟨.dat, .f, imm 0, imm 3⟩), (12, ⟨.dat, .f, imm 9, imm 10⟩)] [10])) =
    some ([], ⟨.dat, .f, imm 3, imm 10⟩) := by decide
theorem test_mod_30 : seen 12 (step (alone [(10, ⟨.mod, .x, dir 1, dir 2⟩), (11, ⟨.dat, .f, imm 3, imm 4⟩), (12, ⟨.dat, .f, imm 10, imm 20⟩)] [10])) =
    some ([11], ⟨.dat, .f, imm 2, imm 2⟩) := by decide
theorem test_mod0_2 : seen 11 (step (alone [(10, ⟨.mod, .ab, imm 0, dir 1⟩), (11, ⟨.dat, .f, imm 0, imm 23⟩)] [10])) =
    some ([], ⟨.dat, .f, imm 0, imm 23⟩) := by decide
theorem test_jmp_4 : seen 11 (step (alone [(10, ⟨.jmp, .b, bInc 1, dir 0⟩), (11, ⟨.dat, .f, imm 0, imm 4⟩)] [10])) =
    some ([15], ⟨.dat, .f, imm 0, imm 5⟩) := by decide
theorem test_win_5 : seen 59 (step (oneWarrior (cfgOf 100 8000) [(10, ⟨.jmp, .b, dir 50, dir 0⟩)] [10] [])) =
    some ([59], ⟨.dat, .f, imm 0, imm 0⟩) := by decide
theorem test_jmz_9 : seen 11 (step (alone [(10, ⟨.jmz, .b, dir 5, bInc 1⟩)] [10])) =
    some ([11], ⟨.dat, .f, imm 0, imm 1⟩) := by decide
theorem test_jmz_ba : seen 11 (step (alone [(10, ⟨.jmz, .ba, dir 3, dir 1⟩), (11, ⟨.dat, .f, imm 0, imm 5⟩)] [10])) =
    some ([13], ⟨.dat, .f, imm 0, imm 5⟩) := by decide
theorem test_jmn_ba : seen 11 (step (alone [(10, ⟨.jmn, .ba, dir 3, dir 1⟩), (11, ⟨.dat, .f, imm 0, imm 5⟩)] [10])) =
    some ([11], ⟨.dat, .f, imm 0, imm 5⟩) := by decide
theorem test_jmn_f : seen 11 (step (alone [(10, ⟨.jmn, .f, dir 3, dir 1⟩), (11, ⟨.dat, .f, imm 0, imm 5⟩)] [10])) =
    some ([13], ⟨.dat, .f, imm 0, imm 5⟩) := by decide
theorem test_djn_f : seen 11 (step (alone [(10, ⟨.djn, .f, dir 7999, dir 1⟩), (11, ⟨.dat, .f, imm 1, imm 2⟩)] [10])) =
    some ([9], ⟨.dat, .f, imm 0, imm 1⟩) := by decide
theorem test_djn_8 : seen 11 (step (alone [(10, ⟨.djn, .b, dir 7999, dir 1⟩)] [10])) =
    some ([9], ⟨.dat, .f, imm 0, imm 7999⟩) := by decide
theorem test_spl_2 : seen 7 (step (alone [(5, ⟨.spl, .b, dir 2, dir 0⟩)] [5, 20])) =
    some ([20, 6, 7], ⟨.dat, .f, imm 0, imm 0⟩) := by decide
theorem test_spl_3 : seen 7 (step (oneWarrior (cfgOf 8000 2) [(5, ⟨.spl, .b, dir 2, dir 0⟩)] [5, 20] [])) =
    some ([20, 6], ⟨.dat, .f, imm 0, imm 0⟩) := by decide
theorem test_cmp_9 : seen 12 (step (alone [(10, ⟨.cmp, .i, dir 1, dir 2⟩), (12, ⟨.dat, .f, dir 0, dir 0⟩)] [10])) =
    some ([11], ⟨.dat, .f, dir 0, dir 0⟩) := by decide
theorem test_cmp_13 : seen 7998 (step (alone [(7998, ⟨.cmp, .ab, imm 3, imm 3⟩)] [7998])) =
    some ([0], ⟨.cmp, .ab, imm 3, imm 3⟩) := by decide
theorem test_sne_8 : seen 1 (step (alone [(0, ⟨.sne, .a, imm 5, dir 1⟩), (1, ⟨.dat, .f, imm 6, imm 0⟩)] [0])) =
    some ([2], ⟨.dat, .f, imm 6, imm 0⟩) := by decide
theorem test_slt_9 : seen 0 (step (alone [(0, ⟨.slt, .ab, imm 7999, dir 1⟩)] [0])) =
    some ([1], ⟨.slt, .ab, imm 7999, dir 1⟩) := by decide
theorem test_slt_10 : seen 1 (step (alone [(0, ⟨.slt, .ab, imm 0, dir 1⟩), (1, ⟨.dat, .f, imm 0, imm 7999⟩)] [0])) =
    some ([2], ⟨.dat, .f, imm 0, imm 7999⟩) := by decide
theorem test_ldp_1 : seen 100 (step (oneWarrior (cfgOf 8000 8000) [(100, ⟨.ldp, .b, imm 0, imm 7⟩)] [100] [(7, 42)])) =
    some ([101], ⟨.ldp, .b, imm 0, imm 42⟩) := by decide
theorem test_ldp_7 : seen 600 (step (oneWarrior (cfgOf 8000 8000) [(100, ⟨.ldp, .b, imm 0, dir 500⟩)] [100] [(100, 13)])) =
    some ([101], ⟨.dat, .f, imm 0, imm 13⟩) := by decide
theorem test_nop_2 : seen 2 (step (alone [(0, ⟨.nop, .f, bInc 1, bDec 2⟩)] [0])) =
    some ([1], ⟨.dat, .f, imm 0, imm 7999⟩) := by decide
theorem test_seq_1 : seen 11 (exec (.seq .i (dir 1) (dir 2)) (alone [(10, ⟨.cmp, .i, dir 1, dir 2⟩), (11, ⟨.jmp, .b, aInd 4, bInc 7⟩), (12, ⟨.jmp, .b, aInd 4, bInc 7⟩)] [10])) =
    some ([12], ⟨.jmp, .b, aInd 4, bInc 7⟩) := by decide
theorem test_stp_2 : seenP 1 (step (alone [(1000, ⟨.stp, .b, dir 1, dir 1⟩), (1001, ⟨.dat, .f, imm 0, imm 9⟩)] [1000])) =
    some ([1001], 9) := by decide
theorem test_stp_5 : seenP 3 (step (alone [(10, ⟨.stp, .ab, dir 1, imm 3⟩), (11, ⟨.dat, .f, imm 5, imm 6⟩)] [10])) =
    some ([11], 5) := by decide

/-! ## Reset, the first instruction, and setup -/

/-- A lone warrior whose program is one DAT, loaded at 0, with the parameters of `State.reset`. -/
def resetInput : ConfigInput := ⟨8000, 8000, 8000, 8000, 500, 80000, 100⟩

theorem test_reset_is_setup_of_a_dat :
    setup [⟨0, [.literal .dat .f .immediate 0 .immediate 0]⟩] resetInput [0] = .ok State.reset := by rfl

/-- S-6: a lone DAT warrior dies in pass 1, a Draw of none. -/
theorem test_reset_steps_to_a_draw : ended (step State.reset) = some (.ended (.draw []), 1) := by decide

theorem test_fetch_word_runs : seen 1 (step (State.reset.withFetchWord 40 0x0E20002001)) =
    some ([1], ⟨.mov, .i, dir 0, dir 1⟩) := by decide

/-- The SPL word of C1 as the first instruction after reset. -/
theorem test_fetch_word_splits : (fetch (State.reset.withFetchWord 40 0x5920022000)) =
    some (0, .spl .b (dir 2) (dir 0)) := by decide

/-- The Dwarf of P2 by its packed words (C1). -/
def dwarf (id : Nat) : ProgramImage :=
  ⟨id, [.packed 0x1200042003, .packed 0x0E20026002, .packed 0x383F3E2000, .packed 0x0400000000]⟩

/-- The settings of C3, with MINSEP as given. -/
def c3 (minsep : Int) : ConfigInput := ⟨8000, 8000, 8000, 8000, 500, 100, minsep⟩

theorem test_cfg_2_packed : placePacked 4000 [dwarf 0, dwarf 1] = [0, 4000] := by decide
theorem test_cfg_2 : (setup [dwarf 0, dwarf 1] (c3 4000) [0, 4000]).isOk = true := by decide
theorem test_cfg_3 : validateConfig [dwarf 0, dwarf 1] (c3 4001) = some .coreTooSmall := by decide
theorem test_cfg_9 : validateConfig [dwarf 0, ⟨1, []⟩] (c3 100) = some .emptyProgram := by decide
theorem test_cfg_12 : validPlacement 8000 100 [dwarf 0, dwarf 1] [0, 50] = false := by decide

/-- The program `JMP.B $0, $0`. -/
def loop (id : Nat) : ProgramImage := ⟨id, [.literal .jmp .b .direct 0 .direct 0]⟩

/-- The program `DAT.F #0, #0`. -/
def bomb (id : Nat) : ProgramImage := ⟨id, [.literal .dat .f .immediate 0 .immediate 0]⟩

/-- The result of a match. -/
def resultOf (images : List ProgramImage) (ci : ConfigInput) (places : List Nat) : Option MatchResult :=
  match simulateMatch images ci places with
  | .ok r => r
  | .error _ => none

/-- The settings of the scenarios, with MAXC as given. -/
def scenario (maxc : Int) : ConfigInput := ⟨8000, 8000, 8000, 8000, 500, maxc, 100⟩

theorem test_s_1 : resultOf [bomb 0, loop 1] (scenario 100) [0, 100] = some ⟨.win 1, 1⟩ := by decide
theorem test_s_3 : resultOf [loop 0, loop 1] (scenario 5) [0, 100] = some ⟨.draw [0, 1], 5⟩ := by decide
theorem test_s_4 : resultOf [loop 0] (scenario 0) [0] = some ⟨.draw [0], 0⟩ := by decide

/-! ## Witnesses: a concrete state and operands that meet the hypotheses of each statement

Where a statement's clauses split a range, there is a witness at the values where they meet. -/

theorem witness_DecodeOfEncodeGivesTheInstruction :
    (Instr.seq .i (dir 7999) (bInc 0)).WellFormed 8000 ∧ (Instr.ldp .ba (imm 0) (aDec 0)).WellFormed 1 := by decide
theorem witness_EncodeOfDecodeGivesTheWord :
    decodeRecord 8000 0x0400001F3F = .ok ⟨.dat, .f, imm 0, imm 7999⟩ := by rfl
theorem witness_DecoderReportsTheFirstFailure :
    valueWidth 8000 = 13 ∧ 0x9000000000 / 2 ^ 35 = 18 ∧ 0x8C20002000 / 2 ^ 35 = 17 ∧
      (0x0700000000 / 2 ^ 35 < 18 ∧ bitField 0x0700000000 32 3 = 7) ∧
      (0x1600000000 / 2 ^ 35 = Opcode.add.code ∧ bitField 0x1600000000 32 3 = Modifier.i.code ∧ Modifier.i ∉ legalModifiers .add) ∧
      (0x0400001F40 / 2 ^ 35 = Opcode.dat.code ∧ bitField 0x0400001F40 32 3 = Modifier.f.code ∧
        Modifier.f ∈ legalModifiers .dat ∧ 8000 ≤ bitField 0x0400001F40 0 13) ∧
      (0x0400001F3F / 2 ^ 35 = Opcode.dat.code ∧ bitField 0x0400001F3F 32 3 = Modifier.f.code ∧
        bitField 0x0400001F3F 16 13 < 8000 ∧ bitField 0x0400001F3F 0 13 < 8000) := by decide
theorem witness_IndirectResolvesThroughThePointerCell :
    ((Mode.aIndirect, Sel.a) = (.aIndirect, .a) ∨ (Mode.aIndirect, Sel.a) = (.bIndirect, .b)) ∧
      ((Mode.bIndirect, Sel.b) = (.aIndirect, .a) ∨ (Mode.bIndirect, Sel.b) = (.bIndirect, .b)) := by decide
theorem witness_PredecrementIndirectsThroughTheDecrementedValue :
    0 < 8000 ∧ sparseWf coreFill [(12, ⟨.dat, .f, imm 0, imm 5⟩)] = true ∧
      valueOf (memRead 8000 [(12, ⟨.dat, .f, imm 0, imm 5⟩)] 12) .a = 0 ∧
      ((Mode.aPredec, Sel.a) = (.aPredec, .a) ∨ (Mode.aPredec, Sel.a) = (.bPredec, .b)) ∧
      ((Mode.bPredec, Sel.b) = (.aPredec, .a) ∨ (Mode.bPredec, Sel.b) = (.bPredec, .b)) := by decide
theorem witness_PostincrementIndirectsThroughTheOldValue :
    0 < 8000 ∧ sparseWf coreFill [(12, ⟨.dat, .f, imm 7999, imm 5⟩)] = true ∧
      valueOf (memRead 8000 [(12, ⟨.dat, .f, imm 7999, imm 5⟩)] 12) .a = 8000 - 1 ∧
      ((Mode.aPostinc, Sel.a) = (.aPostinc, .a) ∨ (Mode.aPostinc, Sel.a) = (.bPostinc, .b)) ∧
      ((Mode.bPostinc, Sel.b) = (.aPostinc, .a) ∨ (Mode.bPostinc, Sel.b) = (.bPostinc, .b)) := by decide

/-- Both branches of the modes' hypothesis, at T-ORD-1 and T-ORD-6. -/
theorem witness_SourceDecrementIsSeenByTheDestination :
    0 < (cfgOf 8000 8000).coreSize ∧ sparseWf coreFill [(12, ⟨.dat, .f, imm 0, imm 5⟩)] = true ∧
      ∀ p ∈ [((⟨.mov, .i, bDec 2, bDec 2⟩ : Record), Sel.b), (⟨.mov, .a, aDec 1, aDec 1⟩, .a)],
        (p.1.a.mode = .aPredec ∧ p.1.b.mode = .aPredec ∧ p.2 = .a ∨
          p.1.a.mode = .bPredec ∧ p.1.b.mode = .bPredec ∧ p.2 = .b) ∧ p.1.a.value = p.1.b.value := by decide

/-- The edges of the window of T-WIN-1 to T-WIN-6 (pc = 10, d = 100, h = 50): -51, -50, 49, 50; and d = C. -/
theorem witness_WindowClampsToTheNearerEdge :
    0 < 8000 ∧ 2 ≤ 100 ∧ 100 < 8000 ∧ 100 / 2 = 50 ∧ signedOffset 8000 10 7959 = -51 ∧ signedOffset 8000 10 7960 = -50 ∧
      signedOffset 8000 10 59 = 49 ∧ signedOffset 8000 10 60 = 50 ∧ win 8000 10 7959 100 = 7960 ∧
      win 8000 10 7960 100 = 7960 ∧ win 8000 10 59 100 = 59 ∧ win 8000 10 60 100 = 59 ∧ win 8000 10 4010 8000 = 4010 := by decide
theorem witness_SnapshotsAreReadAfterBothResolutions :
    (imm 5).mode = .immediate ∧ (dir 5).mode ≠ .immediate := by decide
theorem witness_ResolutionChangesPointerValuesOnly :
    sparseWf coreFill ([] : CoreMem) = true ∧ sideEffectCell 8000 10 (bDec 1) = some 11 ∧
      sideEffectCell 8000 10 (bDec 1) ≠ some (12 % 8000) ∧ sideEffectCell 8000 10 (dir 2) ≠ some (12 % 8000) := by decide
theorem witness_DatEndsItsProcess :
    frontProcess (alone [] [10, 30]) = some (0, 10, [30]) ∧
      (Instr.dat .f (bDec 1) (bInc 2)).WellFormed 8000 ∧
      sparseWf coreFill (alone [] [10, 30]).core = true := by decide
theorem witness_MovWholeCopiesTheRecord :
    frontProcess (alone [] [10, 30]) = some (0, 10, [30]) ∧
      (Instr.mov .i (dir 0) (dir 1)).WellFormed 8000 ∧
      sparseWf coreFill (alone [] [10, 30]).core = true := by decide
theorem witness_MovCopiesTheSelectedValues :
    frontProcess (alone [] [10, 30]) = some (0, 10, [30]) ∧
      (Instr.mov .x (dir 1) (dir 2)).WellFormed 8000 ∧
      sparseWf coreFill (alone [] [10, 30]).core = true ∧
      Modifier.x ≠ .i := by decide
theorem witness_AddAddsModuloTheCoreSize :
    frontProcess (alone [(11, ⟨.dat, .f, imm 3, imm 4⟩)] [10, 30]) = some (0, 10, [30]) ∧
      (Instr.add .f (dir 1) (dir 2)).WellFormed 8000 ∧
      sparseWf coreFill (alone [(11, ⟨.dat, .f, imm 3, imm 4⟩)] [10, 30]).core = true := by decide
theorem witness_SubSubtractsModuloTheCoreSize :
    frontProcess (alone [(11, ⟨.dat, .f, imm 3, imm 4⟩)] [10, 30]) = some (0, 10, [30]) ∧
      (Instr.sub .x (dir 1) (dir 2)).WellFormed 8000 ∧
      sparseWf coreFill (alone [(11, ⟨.dat, .f, imm 3, imm 4⟩)] [10, 30]).core = true := by decide
theorem witness_MulMultipliesModuloTheCoreSize :
    frontProcess (alone [] [10, 30]) = some (0, 10, [30]) ∧
      (Instr.mul .ab (imm 100) (dir 1)).WellFormed 8000 ∧
      sparseWf coreFill (alone [] [10, 30]).core = true := by decide
theorem witness_DivDividesUnsigned :
    frontProcess (alone [(11, ⟨.dat, .f, imm 3, imm 4⟩)] [10, 30]) = some (0, 10, [30]) ∧
      (Instr.div .x (dir 1) (dir 2)).WellFormed 8000 ∧
      sparseWf coreFill (alone [(11, ⟨.dat, .f, imm 3, imm 4⟩)] [10, 30]).core = true ∧
      ∀ p ∈ pairs .x, valueOf (operandsOf (alone [(11, ⟨.dat, .f, imm 3, imm 4⟩)] [10, 30]) 10 ⟨.div, .x, dir 1, dir 2⟩).src p.1 ≠ 0 := by decide
theorem witness_ModLeavesTheUnsignedRemainder :
    frontProcess (alone [] [10, 30]) = some (0, 10, [30]) ∧
      (Instr.mod .ab (imm 7) (dir 1)).WellFormed 8000 ∧
      sparseWf coreFill (alone [] [10, 30]).core = true ∧
      ∀ p ∈ pairs .ab, valueOf (operandsOf (alone [] [10, 30]) 10 ⟨.mod, .ab, imm 7, dir 1⟩).src p.1 ≠ 0 := by decide

/-- For both instructions, with the first, the second and both divisors zero. -/
theorem witness_ZeroDivisorEndsTheProcess :
    frontProcess (alone [] [10, 30]) = some (0, 10, [30]) ∧
      (Instr.div .f (dir 1) (dir 2)).WellFormed 8000 ∧ (Instr.mod .f (dir 1) (dir 2)).WellFormed 8000 ∧
      ∀ r ∈ [(⟨.dat, .f, imm 0, imm 3⟩ : Record), ⟨.dat, .f, imm 3, imm 0⟩, ⟨.dat, .a, imm 0, imm 0⟩], ∀ op ∈ [Opcode.div, .mod],
        sparseWf coreFill (alone [(11, r)] [10, 30]).core = true ∧
          ∃ p ∈ pairs .f, valueOf (operandsOf (alone [(11, r)] [10, 30]) 10 ⟨op, .f, dir 1, dir 2⟩).src p.1 = 0 := by decide
theorem witness_JmpGoesToTheSourceAddress :
    frontProcess (alone [] [10, 30]) = some (0, 10, [30]) ∧
      (Instr.jmp .i (bInc 1) (dir 0)).WellFormed 8000 ∧
      sparseWf coreFill (alone [] [10, 30]).core = true := by decide
theorem witness_JmzJumpsIfAllZero :
    frontProcess (alone [] [10, 30]) = some (0, 10, [30]) ∧
      (Instr.jmz .f (dir 3) (dir 1)).WellFormed 8000 ∧
      sparseWf coreFill (alone [] [10, 30]).core = true ∧
      (∀ f ∈ tfields .f, valueOf (operandsOf (alone [] [10, 30]) 10 ⟨.jmz, .f, dir 3, dir 1⟩).dst f = 0) ∧
      ¬ ∀ f ∈ tfields .f, valueOf (operandsOf (alone [(11, ⟨.dat, .f, imm 0, imm 5⟩)] [10, 30]) 10 ⟨.jmz, .f, dir 3, dir 1⟩).dst f = 0 := by decide
theorem witness_JmnJumpsIfAnyNonzero :
    frontProcess (alone [] [10, 30]) = some (0, 10, [30]) ∧
      (Instr.jmn .f (dir 3) (dir 1)).WellFormed 8000 ∧
      sparseWf coreFill (alone [] [10, 30]).core = true ∧
      (¬ ∃ f ∈ tfields .f, valueOf (operandsOf (alone [] [10, 30]) 10 ⟨.jmn, .f, dir 3, dir 1⟩).dst f ≠ 0) ∧
      ∃ f ∈ tfields .f, valueOf (operandsOf (alone [(11, ⟨.dat, .f, imm 0, imm 5⟩)] [10, 30]) 10 ⟨.jmn, .f, dir 3, dir 1⟩).dst f ≠ 0 := by decide
theorem witness_DjnDecrementsThenJumpsIfAnyNonzero :
    frontProcess (alone [(11, ⟨.dat, .f, imm 1, imm 1⟩)] [10, 30]) = some (0, 10, [30]) ∧
      (Instr.djn .f (dir 7999) (dir 1)).WellFormed 8000 ∧
      sparseWf coreFill (alone [(11, ⟨.dat, .f, imm 1, imm 1⟩)] [10, 30]).core = true := by decide

/-- One process below the limit, and at it (T-SPL-5 and T-SPL-3). -/
theorem witness_SplSplitsBelowTheLimit :
    (Instr.spl .b (dir 2) (dir 0)).WellFormed 8000 ∧
      ∀ maxp ∈ [3, 2], frontProcess (oneWarrior (cfgOf 8000 maxp) [] [5, 20] []) = some (0, 5, [20]) ∧
        ((queueOf (oneWarrior (cfgOf 8000 maxp) [] [5, 20] []) 0).length < maxp ↔ maxp = 3) := by decide
theorem witness_CmpAndSeqSkipIfEqual :
    frontProcess (alone [] [10, 30]) = some (0, 10, [30]) ∧ ∀ i ∈ [Instr.cmp .i (dir 1) (dir 2), Instr.seq .i (dir 1) (dir 2)],
      (i = .cmp .i (dir 1) (dir 2) ∨ i = .seq .i (dir 1) (dir 2)) ∧ i.WellFormed 8000 := by decide
theorem witness_SneSkipsIfDifferent :
    frontProcess (alone [] [10, 30]) = some (0, 10, [30]) ∧
      (Instr.sne .i (dir 1) (dir 2)).WellFormed 8000 ∧
      sparseWf coreFill (alone [] [10, 30]).core = true := by decide
theorem witness_SltSkipsIfAllLess :
    frontProcess (alone [] [10, 30]) = some (0, 10, [30]) ∧
      (Instr.slt .x (dir 1) (dir 2)).WellFormed 8000 ∧
      sparseWf coreFill (alone [] [10, 30]).core = true := by decide
theorem witness_LdpLoadsFromOwnPSpace :
    frontProcess (alone [] [10, 30]) = some (0, 10, [30]) ∧
      (Instr.ldp .ba (imm 0) (dir 1)).WellFormed 8000 ∧
      sparseWf coreFill (alone [] [10, 30]).core = true := by decide
theorem witness_StpStoresIntoOwnPSpace :
    frontProcess (alone [] [10, 30]) = some (0, 10, [30]) ∧
      (Instr.stp .ab (imm 42) (imm 7)).WellFormed 8000 ∧
      sparseWf coreFill (alone [] [10, 30]).core = true ∧
      sparseWf pspaceFill (pspaceOf (alone [] [10, 30]) 0) = true := by decide
theorem witness_NopOnlyAdvances :
    frontProcess (alone [] [10, 30]) = some (0, 10, [30]) ∧
      (Instr.nop .f (bInc 1) (bDec 2)).WellFormed 8000 ∧
      sparseWf coreFill (alone [] [10, 30]).core = true := by decide
theorem witness_JmnJumpsExactlyWhenJmzDoesNot :
    frontProcess (alone [] [10, 30]) = some (0, 10, [30]) ∧
      (seen 0 (exec (.jmz .f (dir 3) (dir 1)) (alone [] [10, 30]))).isSome = true ∧
      (seen 0 (exec (.jmn .f (dir 3) (dir 1)) (alone [] [10, 30]))).isSome = true := by decide
theorem witness_SneSkipsExactlyWhenCmpDoesNot :
    (Modifier.i ≠ .i ∨ ((dir 1).mode ≠ .immediate ∧ (dir 2).mode ≠ .immediate)) ∧
      (Modifier.ab ≠ .i ∨ ((imm 1).mode ≠ .immediate ∧ (imm 2).mode ≠ .immediate)) ∧
      frontProcess (alone [] [10, 30]) = some (0, 10, [30]) ∧
      (seen 0 (exec (.cmp .i (dir 1) (dir 2)) (alone [] [10, 30]))).isSome = true ∧
      (seen 0 (exec (.sne .i (dir 1) (dir 2)) (alone [] [10, 30]))).isSome = true := by decide

/-- A turn that changes core: T-ARITH-31's. -/
def addState : State := alone [(11, ⟨.dat, .f, imm 0, imm 7999⟩)] [10, 30]

/-- The state after it. -/
def addState' : State := alone [] [30, 11]

theorem witness_OnlyMovWholeWritesMoreThanValues :
    sparseWf coreFill addState.core = true ∧ exec (.add .ab (imm 1) (dir 1)) addState = .next addState' ∧
      ∀ a b, Instr.add .ab (imm 1) (dir 1) ≠ .mov .i a b := ⟨by decide, rfl, fun _ _ h => nomatch h⟩
theorem witness_InstructionsTouchOnlyTheirOwnWarrior :
    exec (.add .ab (imm 1) (dir 1)) addState = .next addState' := rfl

/-- Two warriors, for another's p-space. -/
def twoWarriors : State := ⟨cfgOf 8000 8000, [], [⟨0, [10], []⟩, ⟨1, [100], [(3, 4)]⟩], 0, 0, 2, .running⟩

theorem witness_PSpaceIsPrivate :
    frontProcess twoWarriors = some (0, 10, []) ∧ (seen 10 (exec (.stp .ab (imm 5) (imm 3)) twoWarriors)).isSome = true ∧
      ((1 : Nat) ≠ 0 ∨ ((Instr.stp .ab (imm 5) (imm 3)).record.op ≠ .ldp ∧ (Instr.stp .ab (imm 5) (imm 3)).record.op ≠ .stp)) ∧
      (seen 10 (exec (.nop .f (imm 5) (imm 3)) twoWarriors)).isSome = true ∧
      ((0 : Nat) ≠ 0 ∨ ((Instr.nop .f (imm 5) (imm 3)).record.op ≠ .ldp ∧ (Instr.nop .f (imm 5) (imm 3)).record.op ≠ .stp)) := by decide

/-- A lone `JMP.B $0, $0` as setup leaves it. -/
def loopState : State :=
  ⟨⟨8000, 8000, 8000, 8000, 500, 5, 100⟩, [(0, ⟨.jmp, .b, dir 0, dir 0⟩)], [⟨0, [0], []⟩], 0, 0, 1, .running⟩

/-- It after one turn. -/
def loopState' : State :=
  ⟨⟨8000, 8000, 8000, 8000, 500, 5, 100⟩, [(0, ⟨.jmp, .b, dir 0, dir 0⟩)], [⟨0, [0], []⟩], 1, 0, 1, .running⟩

/-- A match that has ended: a Win in the second pass (its loser's program is gone). -/
def wonState : State :=
  ⟨cfgOf 8000 8000, [(0, ⟨.jmp, .b, dir 0, dir 0⟩)], [⟨7, [0], []⟩, ⟨8, [], []⟩], 2, 0, 2, .ended (.win 7)⟩

theorem witness_StepRunsTheFetchedInstruction :
    loopState.status = .running ∧ frontProcess loopState = some (0, 0, []) ∧
      decode 8000 (encodeRecord 8000 (readCell loopState 0)) = .ok (.jmp .b (dir 0) (dir 0)) ∧
      (readCell loopState 0).check 8000 = none := by
  refine ⟨rfl, by decide, ?_, by decide⟩
  rw [show encodeRecord 8000 (readCell loopState 0) = 0x3920002000 by decide]
  rfl
theorem witness_StepRunsTheLaidWord :
    loopState.status = .running ∧ sparseWf coreFill loopState.core = true ∧ frontProcess loopState = some (0, 0, []) ∧
      decode 8000 (0x0E20002001 % 2 ^ 40) = .ok (.mov .i (dir 0) (dir 1)) ∧ 1 % 8000 ≠ 0 % 8000 := ⟨rfl, by decide, by decide, rfl, by decide⟩
theorem witness_AnEndedMatchStaysAsItIs :
    wonState.status = .ended (.win 7) := rfl

/-- The second turn of a pass of S-3: the cursor is 1 before it. -/
def midPass : State :=
  ⟨cfgOf 8000 8000, [(0, ⟨.jmp, .b, dir 0, dir 0⟩), (100, ⟨.jmp, .b, dir 0, dir 0⟩)],
    [⟨0, [0], []⟩, ⟨1, [100], []⟩], 1, 1, 2, .running⟩

/-- The state before it, at the start of the pass. -/
def passStart : State := { midPass with cycleCount := 0, turnPtr := 0 }

/-- The state after it. -/
def passEnd : State := { midPass with turnPtr := 0 }

/-- Both clauses: a later warrior is Active after the first turn, none after the second. -/
theorem witness_TheCursorFollowsTheRotation :
    frontProcess passStart = some (0, 0, []) ∧ step passStart = .next midPass ∧ queueOf midPass 1 ≠ [] ∧
      frontProcess midPass = some (1, 100, []) ∧ step midPass = .next passEnd ∧ ∀ i, 1 < i → queueOf passEnd i = [] := by
  refine ⟨by decide, rfl, by decide, by decide, rfl, fun i hi => ?_⟩
  obtain ⟨k, rfl⟩ : ∃ k, i = k + 2 := ⟨i - 2, by omega⟩
  rfl

/-- At the start of a pass and in its middle. -/
theorem witness_ThePassCounterRisesAtThePassStart :
    passStart.status = .running ∧ passStart.turnPtr = 0 ∧ step passStart = .next midPass ∧ midPass.status = .running ∧
      midPass.turnPtr = 1 ∧ step midPass = .next passEnd := ⟨rfl, rfl, rfl, rfl, rfl, rfl⟩

/-- A step to each outcome: a Win (S-1), a Draw of none (S-6), a Draw at the pass limit (S-3), and none. -/
theorem witness_TheMatchEndsExactlyAtTheEndCondition :
    ended (step ⟨cfgOf 8000 8000, [], [⟨0, [0], []⟩, ⟨1, [100], []⟩], 0, 0, 2, .running⟩) = some (.ended (.win 1), 1) ∧
      ended (step (alone [] [0])) = some (.ended (.draw []), 1) ∧
      ended (step { midPass with cycleCount := 100 }) = some (.ended (.draw [0, 1]), 100) ∧
      ended (step midPass) = some (.running, 1) := by decide
theorem witness_EliminationIsFinal :
    runSteps 3 wonState = .next wonState ∧ queueOf wonState 1 = [] ∧
      frontProcess midPass = some (1, 100, []) ∧ step midPass = .next passEnd ∧ (0 : Nat) ≠ 1 := ⟨rfl, rfl, by decide, rfl, by decide⟩
theorem witness_TheTurnEventIsWhatTheStepDoes :
    loopState.status = .running ∧ frontProcess loopState = some (0, 0, []) ∧ step loopState = .next loopState' ∧
      turnEvent loopState = some ⟨1, 0, 0, ⟨.jmp, .b, dir 0, dir 0⟩, .next 0⟩ := ⟨rfl, by decide, rfl, by decide⟩

/-- An event of each kind: DAT's death, a zero divisor's, and none. -/
theorem witness_OnlyDatDivAndModKill :
    turnEvent (alone [] [10]) = some ⟨1, 0, 10, coreFill, .death .datExecuted⟩ ∧
      turnEvent (alone [(10, ⟨.div, .ab, imm 0, dir 1⟩)] [10]) = some ⟨1, 0, 10, ⟨.div, .ab, imm 0, dir 1⟩, .death .divideByZero⟩ ∧
      turnEvent loopState = some ⟨1, 0, 0, ⟨.jmp, .b, dir 0, dir 0⟩, .next 0⟩ := by decide

/-- The invariant holds of a Running match. -/
theorem witness_inv_running : Inv loopState :=
  ⟨by decide, by decide, by decide, rfl, by decide, by decide, .inl rfl, by decide, by decide, by decide⟩

/-- The invariant holds in the middle of a pass. -/
theorem witness_inv_mid_pass : Inv midPass :=
  ⟨by decide, by decide, by decide, rfl, by decide, by decide, .inr ⟨1, by decide, by decide⟩, by decide, by decide, by decide⟩

/-- The invariant holds of a match won. -/
theorem witness_inv_won : Inv wonState :=
  ⟨by decide, by decide, by decide, rfl, by decide, by decide, .inl rfl, by decide, by decide, by decide⟩

/-- A match that ended in a Draw of none. -/
def deadState : State := ⟨cfgOf 8000 8000, [], [⟨7, [], []⟩], 1, 0, 1, .ended (.draw [])⟩

theorem witness_inv_dead : Inv deadState :=
  ⟨by decide, by decide, by decide, rfl, by decide, by decide, .inl rfl, by decide, by decide, by decide⟩

theorem witness_EveryStepKeepsTheMatchLegal : Inv midPass ∧ step midPass = .next passEnd := ⟨witness_inv_mid_pass, rfl⟩

theorem witness_ALegalMatchNeverStops : Inv loopState ∧ loopState.status = .running := ⟨witness_inv_running, rfl⟩

/-- A Win, and a Draw of none. -/
theorem witness_TheOutcomeNamesTheSurvivors :
    (Inv wonState ∧ wonState.status = .ended (.win 7)) ∧ Inv deadState ∧ deadState.status = .ended (.draw []) :=
  ⟨⟨witness_inv_won, rfl⟩, witness_inv_dead, rfl⟩

/-- The hypothesis of the statements about setup, with MAXC 5. -/
theorem witness_EveryMatchEndsWithAResult : setup [loop 0] (scenario 5) [0] = .ok loopState := rfl

theorem witness_SetupGivesALegalMatch : setup [loop 0] (scenario 5) [0] = .ok loopState := rfl

/-- A program of two cells that wraps past C - 1, and a cell that no program covers. -/
theorem witness_SetupLeavesTheResetState :
    setup [⟨0, [.packed 0x0E20002001, .packed 0x0E20002001]⟩] (scenario 5) [7999] =
      .ok ⟨(scenario 5).cfg, [(0, ⟨.mov, .i, dir 0, dir 1⟩), (7999, ⟨.mov, .i, dir 0, dir 1⟩)], [⟨0, [7999], []⟩], 0, 0, 1, .running⟩ :=
  rfl

/-- Both sides can hold: T-CFG-2. -/
theorem witness_SetupAcceptsExactlyTheLegalInputs :
    (setup [dwarf 0, dwarf 1] (c3 4000) [0, 4000]).isOk = true ∧ (setup [dwarf 0, dwarf 1] (c3 4000) [0, 3999]).isOk = false := by
  decide

/-- The cause for which setup refuses. -/
def setupError (images : List ProgramImage) (ci : ConfigInput) (places : List Nat) : Option SetupError :=
  match setup images ci places with
  | .ok _ => none
  | .error e => some e

/-- A ValidationError, of the first invalid word (T-DEC-3 before T-DEC-1), also where the configuration is invalid
too. -/
theorem witness_SetupAcceptsExactlyTheLegalInputs_validation :
    setupError [dwarf 0, ⟨1, [.packed 0x0400000000, .packed 0x0700000000, .packed 0x9000000000]⟩] (c3 4001) [0, 4000] =
      some (.validation .badModifier) := by decide

/-- A ConfigError of the table, before the placement is looked at (T-CFG-3). -/
theorem witness_SetupAcceptsExactlyTheLegalInputs_config :
    setupError [dwarf 0, dwarf 1] (c3 4001) [] = some (.config .coreTooSmall) := by decide

/-- BadPlacement by R311 (T-CFG-12), and by log entry 12: a list of the wrong length, an address outside `[0, C)`. -/
theorem witness_SetupAcceptsExactlyTheLegalInputs_placement :
    setupError [dwarf 0, dwarf 1] (c3 100) [0, 50] = some (.config .badPlacement) ∧
      setupError [dwarf 0, dwarf 1] (c3 100) [0] = some (.config .badPlacement) ∧
      setupError [dwarf 0, dwarf 1] (c3 100) [0, 8000] = some (.config .badPlacement) := by decide

/-- MAXC 0 and MAXC 1. -/
theorem witness_ZeroMaxCyclesEndsTheMatchAtSetup :
    setup [loop 0] (scenario 0) [0] = .ok { loopState with cfg := (scenario 0).cfg, status := .ended (.draw [0]) } ∧
      setup [loop 0] (scenario 1) [0] = .ok { loopState with cfg := (scenario 1).cfg } := ⟨rfl, rfl⟩

/-- The tightest core, and one warrior alone. -/
theorem witness_PackedPlacementIsAlwaysLegal :
    validateConfig [dwarf 0, dwarf 1] (c3 4000) = none ∧ validateConfig [loop 0] (scenario 5) = none := by decide

theorem witness_NoPlacementExistsInATooSmallCore :
    2 ≤ [dwarf 0, dwarf 1].length ∧ PlacementRule 8000 4000 [dwarf 0, dwarf 1] [4000, 0] := by
  refine ⟨by decide, rfl, by decide, ?_⟩
  rintro (_ | _ | i) (_ | _ | j) si sj im hij him hi hj <;>
    first
    | exact absurd rfl hij
    | (cases him; cases hi; cases hj; decide)
    | (cases hi; done)
    | cases hj

/-- A lone warrior that has stored into its p-space. -/
def keepState : State := { loopState with warriors := [⟨0, [0], [(3, 4)]⟩], cycleCount := 2 }

/-- A round reset to another load address, in a match with a p-space to keep. -/
theorem witness_ANewRoundKeepsThePSpaces : Inv keepState ∧
    newRound [loop 0] [5] keepState =
      .ok { loopState with core := [(5, ⟨.jmp, .b, dir 0, dir 0⟩)], warriors := [⟨0, [5], [(3, 4)]⟩] } :=
  ⟨⟨by decide, by decide, by decide, rfl, by decide, by decide, .inl rfl, by decide, by decide, by decide⟩, rfl⟩

/-- The cause for which a round reset is refused. -/
def roundError (images : List ProgramImage) (places : List Nat) (s : State) : Option SetupError :=
  match newRound images places s with
  | .ok _ => none
  | .error e => some e

/-- Images that setup would refuse: an empty program, and a lone program longer than the core (log entry 6). -/
theorem test_new_round_refuses :
    roundError [⟨0, []⟩] [0] keepState = some (.config .emptyProgram) ∧
      roundError [⟨0, List.replicate 4 (.literal .dat .f .immediate 0 .immediate 0)⟩] [0]
        { keepState with cfg := ⟨3, 3, 3, 8, 5, 5, 0⟩ } = some (.config .coreTooSmall) := by decide

/-- A core size of 0 with a packed word is a ValidationError, with a literal a ConfigError (log entry 20). -/
theorem test_core_size_zero :
    (validateImages 0 [⟨0, [.packed 0]⟩]).isSome = true ∧ validateImages 0 [loop 0] = none ∧
      validateConfig [loop 0] ⟨0, 0, 0, 1, 1, 1, 0⟩ = some .coreTooSmall := by decide

/-- An instruction that exec refuses, and one that it does not. -/
theorem witness_InvalidInstructionsAreRefused :
    ¬ (Instr.add .i (imm 0) (imm 0)).WellFormed loopState.cfg.coreSize ∧
      (Instr.add .ab (imm 0) (imm 0)).WellFormed loopState.cfg.coreSize := by decide

end Sys2Proof.Tests
end

section
/-! What one operand field's resolution does, mode by mode (40_operands R104 to R110). -/

namespace Sys2Proof.Proofs.Operands

open Sys2Proof Sys2Proof.Machine

/-! ## Residues of sums and neighbours -/

theorem modC_add_natCast (C a b : Nat) : modC C ((a : Int) + b) = (a + b) % C :=
  modC_natCast C (a + b)

theorem modC_add_one (C a : Nat) : modC C ((a : Int) + 1) = (a + 1) % C :=
  modC_natCast C (a + 1)

/-- The cell below cell 0 is the last one. -/
theorem modC_neg_one {C : Nat} (hC : 0 < C) : modC C (-1) = C - 1 :=
  calc modC C (-1) = modC C (((C - 1 : Nat) : Int) + (-1) * C) := by congr 1; omega
    _ = modC C ((C - 1 : Nat) : Int) := modC_add_mul C _ _
    _ = C - 1 := modC_of_lt (by omega)

/-- Stepping by the largest residue is stepping back by one. -/
theorem modC_add_pred {C : Nat} (hC : 0 < C) (p : Nat) : (p + (C - 1)) % C = modC C ((p : Int) - 1) :=
  calc (p + (C - 1)) % C = modC C ((p + (C - 1) : Nat) : Int) := (modC_natCast C _).symm
    _ = modC C ((p : Int) - 1 + 1 * C) := by congr 1; omega
    _ = modC C ((p : Int) - 1) := modC_add_mul C _ _

/-! ## One field value stored into the pointer cell -/

theorem valueOf_memWriteValue_same {C : Nat} {core : CoreMem} (hm : sparseWf coreFill core = true) (p : Nat) (sel : Sel)
    (v : Nat) : valueOf (memRead C (memWriteValue C core p sel v) p) sel = v := by
  rw [memRead_memWriteValue_same hm rfl, valueOf_withValue, if_pos rfl]

/-- The side effect of a predecrement or postincrement touches one field value of its pointer cell and nothing else
(40_operands R107 to R110). -/
theorem memWriteValue_pointer_frame {C : Nat} {core : CoreMem} (hm : sparseWf coreFill core = true) (q : Nat) (sel : Sel)
    (v : Nat) :
    SameButValues (memRead C core (q % C)) (memRead C (memWriteValue C core (q % C) sel v) (q % C)) [sel] ∧
      ∀ x, x % C ≠ q % C → memRead C (memWriteValue C core (q % C) sel v) x = memRead C core x :=
  ⟨memWriteValue_sameButValues hm _ sel v _,
    fun _ hx => memRead_memWriteValue_other core (by rwa [Nat.mod_mod]) sel v⟩

/-! ## The obligations -/

/-- Settles O5: R104, and the example of the rule is that equation at C = 8000. -/
theorem directResolvesToCounterPlusValue : Obligations.DirectResolvesToCounterPlusValue := by
  have direct_eq (C pc v : Nat) (core : CoreMem) : resolve C pc ⟨.direct, v⟩ core = ((pc + v) % C, core) := by
    rw [resolve_direct, modC_add_natCast]
  exact ⟨direct_eq, fun core => by rw [direct_eq]⟩

/-- Settles O6: R105 and R106 are one equation over the selected field. -/
theorem indirectResolvesThroughThePointerCell : Obligations.IndirectResolvesThroughThePointerCell := by
  intro C pc v core mode sel hmode
  rw [resolve_indirect C pc v core mode sel hmode, modC_add_natCast, modC_add_natCast]

/-- Settles O7: the address and the value left in the pointer cell are both the decremented value's; at 0 that value is
C - 1, and adding it steps back by one. -/
theorem predecrementIndirectsThroughTheDecrementedValue :
    Obligations.PredecrementIndirectsThroughTheDecrementedValue := by
  intro C pc v core mode sel hC hm hmode ptr old res
  have hres : res = ((ptr + modC C ((old : Int) - 1)) % C, memWriteValue C core ptr sel (modC C ((old : Int) - 1))) := by
    simp only [res, old, ptr, resolve_predec C pc v core mode sel hmode, modC_add_natCast]
  have hval : valueOf (memRead C res.2 ptr) sel = modC C ((old : Int) - 1) := by
    rw [hres]; exact valueOf_memWriteValue_same hm ptr sel _
  have haddr : res.1 = (ptr + valueOf (memRead C res.2 ptr) sel) % C := by
    rw [hval, hres]
  have hzero (h0 : old = 0) : valueOf (memRead C res.2 ptr) sel = C - 1 := by
    rw [hval, h0]; exact modC_neg_one hC
  refine ⟨hval, haddr, fun h0 => ⟨hzero h0, ?_⟩, ?_⟩
  · rw [haddr, hzero h0, modC_add_pred hC]
  · rw [hres]; exact memWriteValue_pointer_frame hm (pc + v) sel _

/-- Settles O8: the address is taken from the value read before the store, and C - 1 wraps to 0 in the store. -/
theorem postincrementIndirectsThroughTheOldValue : Obligations.PostincrementIndirectsThroughTheOldValue := by
  intro C pc v core mode sel hC hm hmode ptr old res
  have hres : res = ((ptr + old) % C, memWriteValue C core ptr sel ((old + 1) % C)) := by
    simp only [res, old, ptr, resolve_postinc C pc v core mode sel hmode, modC_add_natCast, modC_add_one]
  have hval : valueOf (memRead C res.2 ptr) sel = (old + 1) % C := by
    rw [hres]; exact valueOf_memWriteValue_same hm ptr sel _
  refine ⟨by rw [hres], hval, fun hlast => ?_, ?_⟩
  · rw [hval, hlast, Nat.sub_add_cancel hC, Nat.mod_self]
  · rw [hres]; exact memWriteValue_pointer_frame hm (pc + v) sel _

end Sys2Proof.Proofs.Operands
end

section
/-! Who reaches a p-space: every operation of a turn commutes with replacing one warrior's p-space, but LDP's read and
STP's write of that very p-space (45_pspace R213). -/

namespace Sys2Proof.Proofs.PSpace

open Sys2Proof Sys2Proof.Machine

/-- The state with `PS[v]` replaced whole: what R213 lets no other warrior's instruction see. -/
def setPSpace (s : State) (v : Nat) (ps : Sparse Nat) : State :=
  updateWarrior s v fun x => { x with pspace := ps }

@[simp] theorem setPSpace_cfg (s : State) (v : Nat) (ps : Sparse Nat) : (setPSpace s v ps).cfg = s.cfg := rfl
@[simp] theorem setPSpace_length (s : State) (v : Nat) (ps : Sparse Nat) :
    (setPSpace s v ps).warriors.length = s.warriors.length := List.length_modify _ _ _

/-! ## Updates of warriors -/

/-- Two updates of warriors change places where they are of different warriors, or their functions do. -/
theorem updateWarrior_comm (s : State) {v w : Nat} {f g : Warrior → Warrior}
    (h : v = w → ∀ x, f (g x) = g (f x)) :
    updateWarrior (updateWarrior s v f) w g = updateWarrior (updateWarrior s w g) v f := by
  simp only [updateWarrior, State.mk.injEq, true_and, and_true]
  apply List.ext_getElem?
  intro i
  simp only [List.getElem?_modify]
  cases s.warriors[i]? with
  | none => rfl
  | some x =>
    by_cases hv : v = i <;> by_cases hw : w = i
    · simp [hv, hw, h (hv.trans hw.symm) x]
    all_goals simp [hv, hw]

/-! ## Queues, and whose turn it is -/

@[simp] theorem queueOf_setPSpace (s : State) (v w : Nat) (ps : Sparse Nat) :
    queueOf (setPSpace s v ps) w = queueOf s w := by
  by_cases h : w = v
  · subst h
    simp only [queueOf_eq, setPSpace, updateWarrior_warriors, List.getElem?_modify]
    cases s.warriors[w]? <;> simp
  · exact queueOf_updateWarrior_other s h _

/-- No p-space decides whose turn it is (60_exceptions R262). -/
@[simp] theorem frontProcess_setPSpace (s : State) (v : Nat) (ps : Sparse Nat) :
    frontProcess (setPSpace s v ps) = frontProcess s := by
  have hnext : nextActive (setPSpace s v ps) = nextActive s := by
    simp only [nextActive, isActive, setPSpace_length, queueOf_setPSpace]
    rfl
  simp [frontProcess, hnext]

theorem setQueue_setPSpace (s : State) (v w : Nat) (ps : Sparse Nat) (q : List Nat) :
    setQueue (setPSpace s v ps) w q = setPSpace (setQueue s w q) v ps :=
  updateWarrior_comm s fun _ _ => rfl

theorem enqueue_setPSpace (s : State) (v w : Nat) (ps : Sparse Nat) (p : Nat) :
    enqueue (setPSpace s v ps) w p = setPSpace (enqueue s w p) v ps := by
  rw [enqueue, queueOf_setPSpace, setQueue_setPSpace, setPSpace_cfg, enqueue]

theorem endTurn_setPSpace (s : State) (v w : Nat) (ps : Sparse Nat) (out : TurnOut) :
    endTurn (setPSpace s v ps) w out = setPSpace (endTurn s w out) v ps := by
  cases out with
  | next p => exact enqueue_setPSpace s v w ps p
  | split p t => simp only [endTurn, enqueue_setPSpace]
  | death c => rfl

/-! ## The core -/

theorem setCore_setPSpace (s : State) (v : Nat) (ps : Sparse Nat) (core : CoreMem) :
    setCore (setPSpace s v ps) core = setPSpace (setCore s core) v ps := rfl

/-- The address resolution unit sees the configuration and the core, and no p-space. -/
theorem operandsOf_setPSpace (s : State) (v : Nat) (ps : Sparse Nat) (pc : Nat) (ir : Record) :
    operandsOf (setPSpace s v ps) pc ir = operandsOf s pc ir := rfl

theorem writeCell_setPSpace (s : State) (v : Nat) (ps : Sparse Nat) (a : Nat) (r : Record) :
    writeCell (setPSpace s v ps) a r = setPSpace (writeCell s a r) v ps := rfl

theorem writeValue_setPSpace (s : State) (v : Nat) (ps : Sparse Nat) (a : Nat) (f : Sel) (x : Nat) :
    writeValue (setPSpace s v ps) a f x = setPSpace (writeValue s a f x) v ps := rfl

theorem writeValues_setPSpace (s : State) (v : Nat) (ps : Sparse Nat) (a : Nat) (l : List (Sel × Nat)) :
    writeValues (setPSpace s v ps) a l = setPSpace (writeValues s a l) v ps := by
  induction l generalizing s with
  | nil => rfl
  | cons p l ih => rw [writeValues, writeValue_setPSpace, ih, writeValues]

/-! ## Another warrior's p-space -/

theorem pRead_setPSpace_other (s : State) {v w : Nat} (h : v ≠ w) (ps : Sparse Nat) (i : Nat) :
    pRead (setPSpace s v ps) w i = pRead s w i := by
  have hps : pspaceOf (setPSpace s v ps) w = pspaceOf s w := by simp [pspaceOf_eq, setPSpace, h]
  rw [pRead, hps, setPSpace_cfg, pRead]

theorem pWrite_setPSpace_other (s : State) {v w : Nat} (h : v ≠ w) (ps : Sparse Nat) (i x : Nat) :
    pWrite (setPSpace s v ps) w i x = setPSpace (pWrite s w i x) v ps :=
  updateWarrior_comm s fun hvw => absurd hvw h

/-! ## The execution unit -/

theorem arithUnit_setPSpace (law : Nat → Nat → Nat → Option Nat) (t : Turn) (s : State) (v : Nat) (ps : Sparse Nat) :
    arithUnit law t (setPSpace s v ps) = (setPSpace (arithUnit law t s).1 v ps, (arithUnit law t s).2) :=
  Prod.ext (writeValues_setPSpace s v ps _ _) rfl

theorem movUnit_setPSpace (t : Turn) (s : State) (v : Nat) (ps : Sparse Nat) :
    movUnit t (setPSpace s v ps) = (setPSpace (movUnit t s).1 v ps, (movUnit t s).2) := by
  unfold movUnit
  split
  · rw [writeCell_setPSpace]
  · rw [writeValues_setPSpace]

theorem djnUnit_setPSpace (t : Turn) (s : State) (v : Nat) (ps : Sparse Nat) :
    djnUnit t (setPSpace s v ps) = (setPSpace (djnUnit t s).1 v ps, (djnUnit t s).2) :=
  Prod.ext (writeValues_setPSpace s v ps _ _) rfl

theorem ldpUnit_setPSpace_other (t : Turn) (s : State) {v : Nat} (h : v ≠ t.w) (ps : Sparse Nat) :
    ldpUnit t (setPSpace s v ps) = (setPSpace (ldpUnit t s).1 v ps, (ldpUnit t s).2) := by
  simp only [ldpUnit, pRead_setPSpace_other s h, setPSpace_cfg, writeValue_setPSpace]

theorem stpUnit_setPSpace_other (t : Turn) (s : State) {v : Nat} (h : v ≠ t.w) (ps : Sparse Nat) :
    stpUnit t (setPSpace s v ps) = (setPSpace (stpUnit t s).1 v ps, (stpUnit t s).2) := by
  simp only [stpUnit, pWrite_setPSpace_other s h]

/-- An execute phase commutes with a p-space that is another warrior's, and with every p-space if it is neither LDP's
nor STP's: it leaves the replacement in place, and its outcome is the same. -/
theorem executeUnit_setPSpace (op : Opcode) (t : Turn) (s : State) (v : Nat) (ps : Sparse Nat)
    (h : v ≠ t.w ∨ (op ≠ .ldp ∧ op ≠ .stp)) :
    executeUnit op t (setPSpace s v ps) = (setPSpace (executeUnit op t s).1 v ps, (executeUnit op t s).2) := by
  cases op
  case mov => exact movUnit_setPSpace t s v ps
  case add => exact arithUnit_setPSpace addLaw t s v ps
  case sub => exact arithUnit_setPSpace subLaw t s v ps
  case mul => exact arithUnit_setPSpace mulLaw t s v ps
  case div => exact arithUnit_setPSpace divLaw t s v ps
  case mod => exact arithUnit_setPSpace remLaw t s v ps
  case djn => exact djnUnit_setPSpace t s v ps
  case ldp => exact ldpUnit_setPSpace_other t s (h.resolve_right fun hop => hop.1 rfl) ps
  case stp => exact stpUnit_setPSpace_other t s (h.resolve_right fun hop => hop.2 rfl) ps
  all_goals rfl

/-! ## The obligation -/

/-- Settles O38: the replaced p-space commutes with each step of a turn in order, the choice of the process, the
dequeue, the resolutions, the execute phase and the requeue. -/
theorem pSpaceIsPrivate : Obligations.PSpaceIsPrivate := by
  intro i s s' w v pc rest ps swap hfront hexec hpriv
  obtain ⟨hvalid, w', pc', rest', hfront', rfl⟩ := exec_next hexec
  obtain ⟨rfl, rfl, rfl⟩ : w = w' ∧ pc = pc' ∧ rest = rest' := by simpa using hfront.symm.trans hfront'
  change exec i (setPSpace s v ps) = .next (setPSpace _ v ps)
  have hfrontSwap : frontProcess (setPSpace s v ps) = some (w, pc, rest) := by rw [frontProcess_setPSpace, hfront]
  rw [exec_eq_runTurn, runTurn_eq (s := setPSpace s v ps) hvalid hfrontSwap, operandsOf_setPSpace, setQueue_setPSpace,
    setCore_setPSpace, executeUnit_setPSpace _ _ _ _ _ hpriv, endTurn_setPSpace]

end Sys2Proof.Proofs.PSpace
end

section
/-! Whose queue a step can change: the executing warrior's alone, so that elimination is final (60_exceptions R261). -/

namespace Sys2Proof.Proofs.Elimination

open Sys2Proof Sys2Proof.Machine

/-! ## Queues through one turn -/

theorem queueOf_enqueue_other (s : State) {w v : Nat} (h : v ≠ w) (p : Nat) :
    queueOf (enqueue s w p) v = queueOf s v := queueOf_setQueue_other s h _

/-- Whatever its outcome, the end of a turn reaches no other warrior's queue; SPL's second counter goes to the
executing warrior too. -/
theorem queueOf_endTurn_other (s : State) {w v : Nat} (h : v ≠ w) (out : TurnOut) :
    queueOf (endTurn s w out) v = queueOf s v := by
  cases out with
  | next p => exact queueOf_enqueue_other s h p
  | split p t => exact (queueOf_enqueue_other _ h t).trans (queueOf_enqueue_other s h p)
  | death c => rfl

theorem queueOf_executeUnit (i : Instr) {t : Turn} (ht : t.ir = i.record) (s : State) (v : Nat) :
    queueOf (executeUnit i.record.op t s).1 v = queueOf s v := by
  obtain ⟨-, hqueues, -⟩ := (executeUnit_writes t s i.record.op (by rw [ht])).frame
  exact hqueues v

/-- The dequeue and the requeue are of the front process's warrior, and the execute phase changes no queue. -/
theorem exec_queueOf_other {i : Instr} {s s' : State} {w pc : Nat} {rest : List Nat}
    (hfront : frontProcess s = some (w, pc, rest)) (hexec : exec i s = .next s') {v : Nat} (h : v ≠ w) :
    queueOf s' v = queueOf s v := by
  obtain ⟨-, w', pc', rest', hfront', rfl⟩ := exec_next hexec
  obtain ⟨rfl, rfl, rfl⟩ : w = w' ∧ pc = pc' ∧ rest = rest' := by simpa using hfront.symm.trans hfront'
  rw [queueOf_endTurn_other _ h, queueOf_executeUnit i rfl, queueOf_congr (setCore_warriors _ _),
    queueOf_setQueue_other s h]

/-! ## Queues through one step -/

/-- All that a step answering a next state can have done: nothing, to an Ended match; else one turn of the front
process, with the cell at its counter as the instruction (60_exceptions R262). -/
theorem step_next {s s' : State} (h : step s = .next s') :
    (∃ o, s.status = .ended o ∧ s' = s) ∨
      (s.status = .running ∧ ∃ w pc rest s₁, frontProcess s = some (w, pc, rest) ∧
        exec (readCell s pc).instr (beginPass s) = .next s₁ ∧ s' = finishTurn s₁ w) := by
  unfold step at h
  cases hstatus : s.status with
  | ended o => exact .inl ⟨o, rfl, by simpa [hstatus] using h.symm⟩
  | running =>
    cases hfront : frontProcess s with
    | none => simp [hstatus, fetch, hfront] at h
    | some p =>
      obtain ⟨w, pc, rest⟩ := p
      have hfetch : fetch (beginPass s) = some (w, (readCell s pc).instr) := by
        simp [fetch, hfront, readCell]
      simp only [hstatus, hfetch] at h
      cases hexec : exec (readCell s pc).instr (beginPass s) with
      | next s₁ => exact .inr ⟨rfl, w, pc, rest, s₁, rfl, hexec, by simpa [hexec] using h.symm⟩
      | fault r => simp [hexec] at h
      | refused r => simp [hexec] at h

@[simp] theorem queueOf_beginPass (s : State) (v : Nat) : queueOf (beginPass s) v = queueOf s v :=
  queueOf_congr (beginPass_warriors s) v

@[simp] theorem queueOf_finishTurn (s : State) (w v : Nat) : queueOf (finishTurn s w) v = queueOf s v :=
  queueOf_congr rfl v

/-- A step leaves every queue, or every queue but the front process's warrior's. -/
theorem step_queueOf {s s' : State} (h : step s = .next s') :
    (∀ v, queueOf s' v = queueOf s v) ∨
      ∃ w pc rest, frontProcess s = some (w, pc, rest) ∧ ∀ v, v ≠ w → queueOf s' v = queueOf s v := by
  obtain ⟨o, -, rfl⟩ | ⟨-, w, pc, rest, s₁, hfront, hexec, rfl⟩ := step_next h
  · exact .inl fun _ => rfl
  · refine .inr ⟨w, pc, rest, hfront, fun v hv => ?_⟩
    calc queueOf (finishTurn s₁ w) v
        = queueOf s₁ v := queueOf_finishTurn s₁ w v
      _ = queueOf (beginPass s) v := exec_queueOf_other (by rw [frontProcess_beginPass, hfront]) hexec hv
      _ = queueOf s v := queueOf_beginPass s v

/-- An Eliminated warrior is not the executing one, whose queue holds the front process. -/
theorem step_keeps_eliminated {s s' : State} {v : Nat} (hv : queueOf s v = []) (h : step s = .next s') :
    queueOf s' v = [] := by
  obtain hall | ⟨w, pc, rest, hfront, hother⟩ := step_queueOf h
  · rw [hall, hv]
  · obtain ⟨-, hqueue⟩ := frontProcess_eq_some.1 hfront
    have hne : v ≠ w := by
      rintro rfl
      simp [hv] at hqueue
    rw [hother v hne, hv]

/-! ## Any number of steps -/

/-- A run of one step more begins with a step that answers a next state. -/
theorem run_succ_next {M : Host.Core} {k : Nat} {s s' : M.State} (h : M.run (k + 1) s = .next s') :
    ∃ s₁, M.step s = .next s₁ ∧ M.run k s₁ = .next s' := by
  rw [Host.Core.run] at h
  cases hstep : M.step s with
  | next s₁ => exact ⟨s₁, rfl, by simpa [hstep] using h⟩
  | fault r => simp [hstep] at h
  | refused r => simp [hstep] at h

/-- What every step keeps, a run of any length keeps. -/
theorem run_keeps {M : Host.Core} {P : M.State → Prop} (hkeep : ∀ s s', P s → M.step s = .next s' → P s') {k : Nat}
    {s s' : M.State} (hs : P s) (h : M.run k s = .next s') : P s' := by
  induction k generalizing s with
  | zero =>
    obtain rfl : s = s' := by simpa [Host.Core.run] using h
    exact hs
  | succ k ih =>
    obtain ⟨s₁, hfirst, hrest⟩ := run_succ_next h
    exact ih (hkeep s s₁ hs hfirst) hrest

/-! ## The obligation -/

/-- Settles O46: a step that changes a queue changes the executing warrior's alone, and an empty queue is not that one. -/
theorem eliminationIsFinal : Obligations.EliminationIsFinal := by
  refine ⟨fun s s' k v hrun hv => ?_, fun s s' w pc rest hfront hstep v hne => ?_⟩
  · exact run_keeps (P := fun s : State => queueOf s v = []) (fun _ _ => step_keeps_eliminated) hv hrun
  · obtain hall | ⟨w', pc', rest', hfront', hother⟩ := step_queueOf hstep
    · exact hall v
    · obtain ⟨rfl, -, -⟩ : w = w' ∧ pc = pc' ∧ rest = rest' := by simpa using hfront.symm.trans hfront'
      exact hother v hne

end Sys2Proof.Proofs.Elimination
end

section
/-! The packed word as digits of a mixed radix, and the decoder's tests in order (30_encoding R75, R85). -/

namespace Sys2Proof.Proofs.Encoding

open Sys2Proof Sys2Proof.Machine

/-! ## The fields of a word as digits -/

/-- Cutting `n` bits off a number: what is left above them, and the bits. -/
theorem div_two_pow_split (w lo n : Nat) : w / 2 ^ lo = w / 2 ^ (lo + n) * 2 ^ n + bitField w lo n := by
  rw [pow_add, ← Nat.div_div_eq_div_mul, bitField, Nat.mul_comm, Nat.div_add_mod]

/-- A digit laid behind a number is read back, and the number above it. -/
theorem digit_of_div_eq {w lo n q r : Nat} (h : w / 2 ^ lo = q * 2 ^ n + r) (hr : r < 2 ^ n) :
    w / 2 ^ (lo + n) = q ∧ bitField w lo n = r := by
  rw [pow_add, ← Nat.div_div_eq_div_mul, bitField, h]
  constructor
  · rw [Nat.mul_comm, Nat.mul_add_div (by positivity), Nat.div_eq_of_lt hr, Nat.add_zero]
  · rw [Nat.mul_comm, Nat.mul_add_mod, Nat.mod_eq_of_lt hr]

theorem bitField_lt (w lo n : Nat) : bitField w lo n < 2 ^ n := Nat.mod_lt _ (by positivity)

/-- The packed word is its six fields in mixed radix, the B-value lowest. -/
theorem encodeRecord_eq_digits (C : Nat) (r : Record) :
    encodeRecord C r =
      ((((r.op.code * 2 ^ 3 + r.mod.code) * 2 ^ 3 + r.a.mode.code) * 2 ^ valueWidth C + r.a.value) * 2 ^ 3
        + r.b.mode.code) * 2 ^ valueWidth C + r.b.value := by
  simp only [encodeRecord]
  ring

/-- The fields of the word `w` are those of the record `r` (30_encoding R75). -/
structure HasFields (C w : Nat) (r : Record) : Prop where
  op : w / 2 ^ (2 * valueWidth C + 9) = r.op.code
  mod : bitField w (2 * valueWidth C + 6) 3 = r.mod.code
  aMode : bitField w (2 * valueWidth C + 3) 3 = r.a.mode.code
  aValue : bitField w (valueWidth C + 3) (valueWidth C) = r.a.value
  bMode : bitField w (valueWidth C) 3 = r.b.mode.code
  bValue : bitField w 0 (valueWidth C) = r.b.value

/-- A word is the packed word of the record whose fields it has. -/
theorem HasFields.encodeRecord_eq {C w : Nat} {r : Record} (h : HasFields C w r) : encodeRecord C r = w := by
  obtain ⟨hop, hmod, ham, hav, hbm, hbv⟩ := h
  rw [encodeRecord_eq_digits, ← hop, ← hmod, ← ham, ← hav, ← hbm, ← hbv]
  generalize valueWidth C = W
  have hW : W + 3 + W = 2 * W + 3 := by omega
  rw [← div_two_pow_split w (2 * W + 6) 3, ← div_two_pow_split w (2 * W + 3) 3, ← hW,
    ← div_two_pow_split w (W + 3) W, ← div_two_pow_split w W 3]
  simpa using (div_two_pow_split w 0 W).symm

/-- The packed word of a valid record has that record's fields: each value fits its width. -/
theorem hasFields_encodeRecord {C : Nat} {r : Record} (h : r.check C = none) : HasFields C (encodeRecord C r) r := by
  obtain ⟨-, ha, hb⟩ := check_eq_none.1 h
  have hwidth := le_two_pow_valueWidth C
  have hmod : r.mod.code < 2 ^ 3 := lt_trans r.mod.code_lt (by norm_num)
  have h0 : encodeRecord C r / 2 ^ 0 = _ := (Nat.div_one _).trans (encodeRecord_eq_digits C r)
  obtain ⟨h1, hbv⟩ := digit_of_div_eq h0 (lt_of_lt_of_le hb hwidth)
  obtain ⟨h2, hbm⟩ := digit_of_div_eq h1 r.b.mode.code_lt
  obtain ⟨h3, hav⟩ := digit_of_div_eq h2 (lt_of_lt_of_le ha hwidth)
  obtain ⟨h4, ham⟩ := digit_of_div_eq h3 r.a.mode.code_lt
  obtain ⟨h5, hm⟩ := digit_of_div_eq h4 hmod
  rw [show 0 + valueWidth C + 3 + valueWidth C + 3 + 3 = 2 * valueWidth C + 9 by omega] at h5
  rw [show 0 + valueWidth C + 3 + valueWidth C + 3 = 2 * valueWidth C + 6 by omega] at hm
  rw [show 0 + valueWidth C + 3 + valueWidth C = 2 * valueWidth C + 3 by omega] at ham
  rw [Nat.zero_add] at hav hbm
  exact ⟨h5, hm, ham, hav, hbm, hbv⟩

/-! ## The decoder, test by test -/

/-- The record that the decoder reads from a word whose opcode and modifier it knows (30_encoding R85). -/
def wordRecord (C w : Nat) (op : Opcode) (m : Modifier) : Record :=
  { op := op, mod := m,
    a := { mode := modeOfCode (bitField w (2 * valueWidth C + 3) 3),
           value := bitField w (valueWidth C + 3) (valueWidth C) },
    b := { mode := modeOfCode (bitField w (valueWidth C) 3), value := bitField w 0 (valueWidth C) } }

theorem decodeRecord_badOpcode {C w : Nat} (h : opcodeOfCode (w / 2 ^ (2 * valueWidth C + 9)) = none) :
    decodeRecord C w = .error .badOpcode := by
  simp only [decodeRecord, h]

theorem decodeRecord_badModifier {C w : Nat} {op : Opcode}
    (hop : opcodeOfCode (w / 2 ^ (2 * valueWidth C + 9)) = some op)
    (h : modifierOfCode (bitField w (2 * valueWidth C + 6) 3) = none) : decodeRecord C w = .error .badModifier := by
  simp only [decodeRecord, hop, h]

section Codes

variable {C w : Nat} {op : Opcode} {m : Modifier}

theorem decodeRecord_of_check_eq_some (hop : w / 2 ^ (2 * valueWidth C + 9) = op.code)
    (hm : bitField w (2 * valueWidth C + 6) 3 = m.code) {e : ValidationError}
    (h : (wordRecord C w op m).check C = some e) : decodeRecord C w = .error e := by
  unfold wordRecord at h
  simp only [decodeRecord, hop, hm, opcodeOfCode_code, modifierOfCode_code, h]

theorem decodeRecord_of_check_eq_none (hop : w / 2 ^ (2 * valueWidth C + 9) = op.code)
    (hm : bitField w (2 * valueWidth C + 6) 3 = m.code) (h : (wordRecord C w op m).check C = none) :
    decodeRecord C w = .ok (wordRecord C w op m) := by
  unfold wordRecord at h ⊢
  simp only [decodeRecord, hop, hm, opcodeOfCode_code, modifierOfCode_code, h]

/-- The record read from a word has the word's fields. -/
theorem hasFields_wordRecord (hop : w / 2 ^ (2 * valueWidth C + 9) = op.code)
    (hm : bitField w (2 * valueWidth C + 6) 3 = m.code) : HasFields C w (wordRecord C w op m) :=
  ⟨hop, hm, (code_modeOfCode (bitField_lt w _ 3)).symm, rfl, (code_modeOfCode (bitField_lt w _ 3)).symm, rfl⟩

end Codes

/-- A word with a valid record's fields reads as that record. -/
theorem HasFields.wordRecord_eq {C w : Nat} {r : Record} (h : HasFields C w r) : wordRecord C w r.op r.mod = r := by
  obtain ⟨op, m, ⟨am, av⟩, ⟨bm, bv⟩⟩ := r
  simp only [wordRecord, h.aMode, h.aValue, h.bMode, h.bValue, modeOfCode_code]

/-- When the decoder answers a record: the word has its fields, and it is valid. -/
theorem decodeRecord_eq_ok {C w : Nat} {r : Record} :
    decodeRecord C w = .ok r ↔ HasFields C w r ∧ r.check C = none := by
  constructor
  · intro h
    cases hop : opcodeOfCode (w / 2 ^ (2 * valueWidth C + 9)) with
    | none => simp [decodeRecord_badOpcode hop] at h
    | some op =>
      cases hm : modifierOfCode (bitField w (2 * valueWidth C + 6) 3) with
      | none => simp [decodeRecord_badModifier hop hm] at h
      | some m =>
        have hop' := (code_of_opcodeOfCode hop).symm
        have hm' := (code_of_modifierOfCode hm).symm
        cases hc : (wordRecord C w op m).check C with
        | some e => simp [decodeRecord_of_check_eq_some hop' hm' hc] at h
        | none =>
          obtain rfl : wordRecord C w op m = r := by simpa [decodeRecord_of_check_eq_none hop' hm' hc] using h
          exact ⟨hasFields_wordRecord hop' hm', hc⟩
  · rintro ⟨h, hc⟩
    have hr := h.wordRecord_eq
    rw [decodeRecord_of_check_eq_none h.op h.mod (hr.symm ▸ hc), hr]

theorem decodeRecord_encodeRecord {C : Nat} {r : Record} (h : r.check C = none) :
    decodeRecord C (encodeRecord C r) = .ok r :=
  decodeRecord_eq_ok.2 ⟨hasFields_encodeRecord h, h⟩

theorem decode_eq_ok {C w : Nat} {i : Instr} :
    decode C w = .ok i ↔ ∃ r, decodeRecord C w = .ok r ∧ i = r.instr := by
  unfold decode
  cases decodeRecord C w <;> simp [eq_comm]

/-- Codes 18 and up are no opcode's (30_encoding R80). -/
theorem opcodeOfCode_eq_none {n : Nat} (h : 18 ≤ n) : opcodeOfCode n = none := by
  cases ho : opcodeOfCode n with
  | none => rfl
  | some o =>
    have := code_of_opcodeOfCode ho
    have := o.code_lt
    omega

theorem exists_opcodeOfCode {n : Nat} (h : n < 18) : ∃ o, opcodeOfCode n = some o := by
  interval_cases n <;> exact ⟨_, rfl⟩

/-! ## The check of a record -/

theorem check_badCombination {C : Nat} {r : Record} (h : r.mod ∉ legalModifiers r.op) :
    r.check C = some .badCombination := by
  simp [Record.check, h]

theorem check_badValue {C : Nat} {r : Record} (hm : r.mod ∈ legalModifiers r.op)
    (h : C ≤ r.a.value ∨ C ≤ r.b.value) : r.check C = some .badValue := by
  by_cases ha : C ≤ r.a.value
  · simp [Record.check, hm, ha]
  · simp [Record.check, hm, ha, h.resolve_left ha]

/-! ## The obligations -/

/-- Settles O1: the packed word has the record's six fields, and a valid record is read back from its fields. -/
theorem decodeOfEncodeGivesTheInstruction : Obligations.DecodeOfEncodeGivesTheInstruction := by
  intro C i hi
  exact decode_eq_ok.2 ⟨i.record, decodeRecord_encodeRecord (wellFormed_iff.1 hi), (instr_record i).symm⟩

/-- Settles O2: the word has the fields of the record it decodes to, and the fields are all its bits. -/
theorem encodeOfDecodeGivesTheWord : Obligations.EncodeOfDecodeGivesTheWord := by
  intro C w r h
  obtain ⟨hf, hc⟩ := decodeRecord_eq_ok.1 h
  exact ⟨hf.encodeRecord_eq, hc⟩

/-- Settles O3: one lemma for each test of the decoder. -/
theorem decoderReportsTheFirstFailure : Obligations.DecoderReportsTheFirstFailure := by
  intro C w W
  refine ⟨fun h => decodeRecord_badOpcode (opcodeOfCode_eq_none h), fun h h7 => ?_, fun op m hop hm => ⟨fun hl => ?_,
    fun hl hv => ?_, fun hl ha hb => ?_⟩⟩
  · obtain ⟨o, ho⟩ := exists_opcodeOfCode h
    exact decodeRecord_badModifier ho (by rw [h7]; rfl)
  · exact decodeRecord_of_check_eq_some hop hm (check_badCombination hl)
  · exact decodeRecord_of_check_eq_some hop hm (check_badValue hl hv)
  · obtain ⟨-, -, ham, -, hbm, -⟩ := hasFields_wordRecord hop hm
    exact ⟨wordRecord C w op m, decodeRecord_of_check_eq_none hop hm (check_eq_none.2 ⟨hl, ha, hb⟩), rfl, rfl, rfl, rfl,
      ham.symm, hbm.symm⟩

/-- Settles O4: six closed words. -/
theorem specWordsDecode : Obligations.SpecWordsDecode := by
  unfold Obligations.SpecWordsDecode
  decide

end Sys2Proof.Proofs.Encoding
end

section
/-! Both operands together, and the windows on their addresses (40_operands R111 to R120, 20_memory R59). -/

namespace Sys2Proof.Proofs.Snapshots

open Sys2Proof Sys2Proof.Machine Sys2Proof.Proofs.Operands

/-! ## Residues inside sums -/

/-- A reduced summand may as well stand unreduced. -/
theorem modC_add_modC {C : Nat} (hC : 0 < C) (u v : Int) : modC C (u + modC C v) = modC C (u + v) := by
  rw [modC_eq_iff hC, modC_cast hC, Int.add_emod_emod]

theorem modC_modC_sub {C : Nat} (hC : 0 < C) (u v : Int) : modC C ((modC C u : Int) - v) = modC C (u - v) := by
  rw [modC_eq_iff hC, modC_cast hC, Int.emod_sub_emod]

/-! ## Two predecrements of one field -/

/-- A predecrement in the core that another predecrement of the same field left. -/
theorem resolve_predec_twice {C pc v : Nat} {core : CoreMem} {mode : Mode} {sel : Sel} (hC : 0 < C)
    (hm : sparseWf coreFill core = true) (hmode : (mode, sel) = (.aPredec, .a) ∨ (mode, sel) = (.bPredec, .b)) :
    let ptr := (pc + v) % C
    let old : Int := valueOf (memRead C core ptr) sel
    let ra := resolve C pc ⟨mode, v⟩ core
    let rb := resolve C pc ⟨mode, v⟩ ra.2
    ra.1 = modC C (ptr + (old - 1)) ∧ rb.1 = modC C (ptr + (old - 2)) ∧
      valueOf (memRead C rb.2 ptr) sel = modC C (old - 2) := by
  intro ptr old ra rb
  have hra : ra = (modC C (ptr + modC C (old - 1)), memWriteValue C core ptr sel (modC C (old - 1))) := by
    simp only [ra, ptr, old, resolve_predec C pc v core mode sel hmode, modC_add_natCast]
  have hleft : valueOf (memRead C ra.2 ptr) sel = modC C (old - 1) := by
    rw [hra]; exact valueOf_memWriteValue_same hm ptr sel _
  have hagain : modC C ((modC C (old - 1) : Int) - 1) = modC C (old - 2) := by
    rw [modC_modC_sub hC, sub_sub]; rfl
  have hrb : rb = (modC C (ptr + modC C (old - 2)), memWriteValue C ra.2 ptr sel (modC C (old - 2))) := by
    rw [← hagain, ← hleft]
    simp only [rb, ptr, resolve_predec C pc v ra.2 mode sel hmode, modC_add_natCast]
  have hm' : sparseWf coreFill ra.2 = true := resolve_wf hm _
  refine ⟨(congrArg Prod.fst hra).trans (modC_add_modC hC ptr (old - 1)),
    (congrArg Prod.fst hrb).trans (modC_add_modC hC ptr (old - 2)), ?_⟩
  rw [hrb]; exact valueOf_memWriteValue_same hm' ptr sel _

/-! ## The window -/

/-- The signed offset lies in `[-C/2, C/2)` and leads from the counter to the address (20_memory R59). -/
theorem signedOffset_spec {C : Nat} (hC : 0 < C) (pc a : Nat) :
    -(C : Int) ≤ 2 * signedOffset C pc a ∧ 2 * signedOffset C pc a < C ∧
      modC C (pc + signedOffset C pc a) = a % C := by
  have hlt := modC_lt hC ((a : Int) - pc)
  have hback : modC C (pc + modC C ((a : Int) - pc)) = a % C := by
    rw [modC_add_modC hC, add_sub_cancel, modC_natCast]
  unfold signedOffset
  dsimp only
  split_ifs with h
  · exact ⟨by omega, h, hback⟩
  · refine ⟨by omega, by omega, ?_⟩
    rw [← hback, ← modC_add_mul C _ 1]
    congr 1
    ring

theorem signedOffset_self {C : Nat} (hC : 0 < C) (pc : Nat) : signedOffset C pc pc = 0 := by
  have : modC C 0 = 0 := modC_of_lt hC
  simp [signedOffset, this, hC]

theorem win_full (C pc a : Nat) : win C pc a C = a % C := by
  rw [win, if_pos rfl, modC_natCast]

section Narrow

variable {C pc a d : Nat}

theorem win_inside (hC : 0 < C) (hd : d ≠ C) (hlow : -((d / 2 : Nat) : Int) ≤ signedOffset C pc a)
    (hhigh : signedOffset C pc a < ((d / 2 : Nat) : Int)) : win C pc a d = a % C := by
  rw [win, if_neg hd, ← (signedOffset_spec hC pc a).2.2]
  simp only [if_neg (not_lt.2 hlow), if_neg (show ¬ signedOffset C pc a > ((d / 2 : Nat) : Int) - 1 by omega)]

theorem win_below (hd : d ≠ C) (hd2 : 2 ≤ d) (h : signedOffset C pc a < -((d / 2 : Nat) : Int)) :
    win C pc a d = modC C (pc - ((d / 2 : Nat) : Int)) := by
  rw [win, if_neg hd]
  simp only [if_pos h, if_neg (show ¬ -((d / 2 : Nat) : Int) > ((d / 2 : Nat) : Int) - 1 by omega)]
  rfl

theorem win_above (hd : d ≠ C) (h : ((d / 2 : Nat) : Int) ≤ signedOffset C pc a) :
    win C pc a d = modC C (pc + ((d / 2 : Nat) : Int) - 1) := by
  rw [win, if_neg hd, add_sub_assoc]
  simp only [if_neg (show ¬ signedOffset C pc a < -((d / 2 : Nat) : Int) by omega),
    if_pos (show signedOffset C pc a > ((d / 2 : Nat) : Int) - 1 by omega)]

end Narrow

/-! ## The obligations -/

/-- Settles O9: the second decrement of the one field reads what the first one left. -/
theorem sourceDecrementIsSeenByTheDestination : Obligations.SourceDecrementIsSeenByTheDestination := by
  intro cfg pc ir core sel hC hm hmodes hvalue
  obtain ⟨op, md, ⟨am, v⟩, ⟨bm, v'⟩⟩ := ir
  obtain rfl : v = v' := hvalue
  obtain ⟨rfl, hmode⟩ : bm = am ∧ ((am, sel) = (.aPredec, .a) ∨ (am, sel) = (.bPredec, .b)) := by
    rcases hmodes with ⟨h1, h2, h3⟩ | ⟨h1, h2, h3⟩
    · exact ⟨h2.trans h1.symm, .inl (Prod.ext h1 h3)⟩
    · exact ⟨h2.trans h1.symm, .inr (Prod.ext h1 h3)⟩
  exact resolve_predec_twice hC hm hmode

/-- Settles O10: one lemma for each side of the window; the counter's own cell has offset 0. -/
theorem windowClampsToTheNearerEdge : Obligations.WindowClampsToTheNearerEdge := by
  intro C pc a d hC hd2 hdC h off
  refine ⟨signedOffset_spec hC pc a, fun hd => ?_, fun hd hlow hhigh => win_inside hC hd.ne hlow hhigh,
    fun hd hlow => win_below hd.ne hd2 hlow, fun hd hhigh => win_above hd.ne hhigh, ?_⟩
  · rw [hd, win_full]
  · rcases eq_or_ne d C with rfl | hd
    · exact win_full d pc pc
    · have h0 := signedOffset_self hC pc
      exact win_inside hC hd (by omega) (by omega)

/-- Settles O11: each component of `prepare` is read off its definition, in the order of resolution. -/
theorem snapshotsAreReadAfterBothResolutions : Obligations.SnapshotsAreReadAfterBothResolutions := by
  intro cfg pc ir core o afterA
  have himm (f : InstrField) (c : CoreMem) (h : f.mode = .immediate) : (resolve cfg.coreSize pc f c).1 = pc := by
    obtain ⟨m, v⟩ := f
    obtain rfl : m = .immediate := h
    rw [resolve_immediate]
  exact ⟨rfl, rfl, rfl, fun h => ⟨if_pos h, himm _ _ h⟩, fun h => ⟨if_pos h, himm _ _ h⟩, fun h => if_neg h,
    fun h => if_neg h, rfl, rfl, rfl⟩

/-- Settles O12: each resolution changes values only, and only in its own pointer cell. -/
theorem resolutionChangesPointerValuesOnly : Obligations.ResolutionChangesPointerValuesOnly := by
  intro cfg pc ir core x hm o
  exact ⟨prepare_sameButValues hm pc ir x, prepare_frame core⟩

end Sys2Proof.Proofs.Snapshots
end

section
/-! The turn as one equation: what `exec` leaves for an execute phase that writes nothing, field values of its target
cell, or a whole cell (40_operands R100). -/

namespace Sys2Proof.Proofs.Turn

open Sys2Proof Sys2Proof.Machine

/-! ## The two ends of a turn -/

/-- What the execute phase is given: the turn of warrior `w` at `pc` with `ir` latched. -/
def turnAt (s : State) (w pc : Nat) (rest : List Nat) (ir : Record) : Turn :=
  { w := w, pc := pc, cnt := rest.length + 1, ir := ir, o := operandsOf s pc ir }

/-- The state the execute phase runs in: the process dequeued, both operands resolved. -/
def opened (s : State) (w pc : Nat) (rest : List Nat) (ir : Record) : State :=
  setCore (setQueue s w rest) (operandsOf s pc ir).core

/-- The state after a turn that wrote to the core alone and left the queue `q`. -/
def closed (s : State) (w : Nat) (q : List Nat) (core : CoreMem) : State := setCore (setQueue s w q) core

@[simp] theorem opened_cfg (s : State) (w pc : Nat) (rest : List Nat) (ir : Record) :
    (opened s w pc rest ir).cfg = s.cfg := rfl

theorem opened_wf {s : State} (hm : sparseWf coreFill s.core = true) (w pc : Nat) (rest : List Nat) (ir : Record) :
    sparseWf coreFill (opened s w pc rest ir).core = true := prepare_wf hm pc ir

/-- A state has one front process. -/
theorem frontProcess_unique {s : State} {w w' pc pc' : Nat} {rest rest' : List Nat}
    (h : frontProcess s = some (w, pc, rest)) (h' : frontProcess s = some (w', pc', rest')) :
    w = w' ∧ pc = pc' ∧ rest = rest' := by
  simpa using h.symm.trans h'

theorem pspaceOf_setQueue (s : State) (w v : Nat) (q : List Nat) : pspaceOf (setQueue s w q) v = pspaceOf s v := by
  simp only [pspaceOf_eq, setQueue_warriors, List.getElem?_modify]
  cases s.warriors[v]? with
  | none => rfl
  | some x => by_cases h : w = v <;> simp [h]

/-- Dequeuing and resolving reach no p-space. -/
@[simp] theorem pspaceOf_opened (s : State) (w pc : Nat) (rest : List Nat) (ir : Record) (v : Nat) :
    pspaceOf (opened s w pc rest ir) v = pspaceOf s v := pspaceOf_setQueue s w v rest

theorem readCell_closed (s : State) (w : Nat) (q : List Nat) (core : CoreMem) (x : Nat) :
    readCell (closed s w q core) x = memRead s.cfg.coreSize core x := rfl

theorem endTurn_closed {s : State} {w : Nat} (h : w < s.warriors.length) (q : List Nat) (core : CoreMem)
    (out : TurnOut) :
    endTurn (closed s w q core) w out = closed s w (q ++ requeued s.cfg.coreSize out) core :=
  endTurn_setQueue (s := setCore s core) h q out

section Rules

variable {i : Instr} {s : State} {w pc : Nat} {rest : List Nat}

/-- `exec` on a well-formed instruction with a front process. -/
theorem exec_eq_endTurn (hf : frontProcess s = some (w, pc, rest)) (hi : i.WellFormed s.cfg.coreSize) :
    exec i s = .next (endTurn
      (executeUnit i.record.op (turnAt s w pc rest i.record) (opened s w pc rest i.record)).1 w
      (executeUnit i.record.op (turnAt s w pc rest i.record) (opened s w pc rest i.record)).2) := by
  rw [exec_eq_runTurn, runTurn_eq (wellFormed_iff.1 hi) hf]
  rfl

/-- `exec` where the execute phase wrote to the core alone. -/
theorem exec_of_core (hf : frontProcess s = some (w, pc, rest)) (hi : i.WellFormed s.cfg.coreSize) {core : CoreMem}
    {out : TurnOut} (hu : executeUnit i.record.op (turnAt s w pc rest i.record) (opened s w pc rest i.record) =
      (closed s w rest core, out)) :
    exec i s = .next (closed s w (rest ++ requeued s.cfg.coreSize out) core) := by
  rw [exec_eq_endTurn hf hi, hu, endTurn_closed (frontProcess_lt hf)]

/-- The frame of a turn: all that is left to say is the core off the target. -/
theorem turnFrame_closed {ir : Record} {core : CoreMem} {q : List Nat} {target : Option Nat}
    (h : ∀ x, target ≠ some (x % s.cfg.coreSize) →
      memRead s.cfg.coreSize core x = memRead s.cfg.coreSize (operandsOf s pc ir).core x) :
    TurnFrame s (closed s w q core) w pc ir target q :=
  ⟨⟨rfl, rfl, rfl, rfl, rfl⟩, rfl, fun x ha hb ht => (h x ht).trans (prepare_frame s.core ha hb), h⟩

/-- The queue that a frame names. -/
theorem queueOf_of_turnFrame {s' : State} {ir : Record} {target : Option Nat} {q : List Nat}
    (h : TurnFrame s s' w pc ir target q) (hf : frontProcess s = some (w, pc, rest)) : queueOf s' w = q := by
  rw [queueOf_congr (s := setQueue s w q) h.warriors]
  exact queueOf_setQueue_same (frontProcess_lt hf) q

/-- A turn whose execute phase writes nothing. -/
theorem exec_of_no_write (hf : frontProcess s = some (w, pc, rest)) (hi : i.WellFormed s.cfg.coreSize) {out : TurnOut}
    (hu : executeUnit i.record.op (turnAt s w pc rest i.record) (opened s w pc rest i.record) =
      (opened s w pc rest i.record, out)) {q : List Nat} (hq : requeued s.cfg.coreSize out = q) :
    ∃ s', exec i s = .next s' ∧ TurnFrame s s' w pc i.record none (rest ++ q) :=
  ⟨_, exec_of_core hf hi hu, hq ▸ turnFrame_closed fun _ _ => rfl⟩

/-- A turn whose execute phase writes field values of its target cell: the fields `fld p` get the values `v p`. -/
theorem exec_of_values {ι : Type} {ps : List ι} {fld : ι → Sel} {v : ι → Nat}
    (hf : frontProcess s = some (w, pc, rest)) (hi : i.WellFormed s.cfg.coreSize) (hm : sparseWf coreFill s.core = true)
    (hnd : (ps.map fld).Nodup) {out : TurnOut}
    (hu : executeUnit i.record.op (turnAt s w pc rest i.record) (opened s w pc rest i.record) =
      (writeValues (opened s w pc rest i.record) (operandsOf s pc i.record).daW (ps.map fun p => (fld p, v p)), out))
    {q : List Nat} (hq : requeued s.cfg.coreSize out = q) :
    let o := operandsOf s pc i.record
    ∃ s', exec i s = .next s' ∧ TurnFrame s s' w pc i.record (some o.daW) (rest ++ q) ∧
      (∀ p ∈ ps, valueOf (readCell s' o.daW) (fld p) = v p) ∧
      SameButValues (memRead s.cfg.coreSize o.core o.daW) (readCell s' o.daW) (ps.map fld) := by
  intro o
  have hfields : (ps.map fun p => (fld p, v p)).map (·.1) = ps.map fld := by simp [Function.comp_def]
  rw [writeValues_eq_setCore] at hu
  have hread (q : List Nat) (x : Nat) : readCell (closed s w q (writeValues (opened s w pc rest i.record) o.daW
      (ps.map fun p => (fld p, v p))).core) x =
        readCell (writeValues (opened s w pc rest i.record) o.daW (ps.map fun p => (fld p, v p))) x := by
    rw [readCell_closed, readCell, writeValues_cfg, opened_cfg]
  refine ⟨_, exec_of_core hf hi hu, hq ▸ turnFrame_closed fun x hx => ?_, fun p hp => ?_, ?_⟩
  · have hne : x % s.cfg.coreSize ≠ o.daW % s.cfg.coreSize := fun he => hx (by rw [he, prepare_daW_mod])
    exact (hread [] x).trans (readCell_writeValues_other (opened s w pc rest i.record) hne _)
  · rw [hread]
    exact valueOf_writeValues (opened_wf hm w pc rest i.record) o.daW (by rwa [hfields])
      (List.mem_map_of_mem (f := fun p => (fld p, v p)) hp)
  · rw [hread, ← hfields]
    exact writeValues_sameButValues (opened_wf hm w pc rest i.record) o.daW _ o.daW

end Rules

/-! ## Outcomes -/

theorem requeued_skipIf (C : Nat) (t : Turn) {taken : Bool} {P : Prop} [Decidable P] (h : taken = true ↔ P) :
    requeued C (skipIf t taken) = [if P then (t.pc + 2) % C else (t.pc + 1) % C] := by
  by_cases hP : P
  · rw [if_pos hP, h.2 hP]; rfl
  · rw [if_neg hP, Bool.eq_false_iff.2 (mt h.1 hP)]; rfl

/-- A jump goes to the windowed address, which is a residue already. -/
theorem requeued_jumpIf (s : State) (w pc : Nat) (rest : List Nat) (ir : Record) {taken : Bool} {P : Prop} [Decidable P]
    (h : taken = true ↔ P) :
    requeued s.cfg.coreSize (jumpIf (turnAt s w pc rest ir) taken) =
      [if P then (operandsOf s pc ir).saR else (pc + 1) % s.cfg.coreSize] := by
  by_cases hP : P
  · rw [if_pos hP, h.2 hP, ← prepare_saR_mod s.cfg pc ir s.core]; rfl
  · rw [if_neg hP, Bool.eq_false_iff.2 (mt h.1 hP)]; rfl

/-! ## The tests on field values -/

theorem allZero_iff {m : Modifier} {r : Record} : allZero m r = true ↔ ∀ f ∈ tfields m, valueOf r f = 0 := by
  simp [allZero]

theorem anyNonzero_iff {m : Modifier} {r : Record} : anyNonzero m r = true ↔ ∃ f ∈ tfields m, valueOf r f ≠ 0 := by
  simp [anyNonzero]

theorem lessTest_iff {m : Modifier} {x y : Record} :
    lessTest m x y = true ↔ ∀ p ∈ pairs m, valueOf x p.1 < valueOf y p.2 := by
  simp [lessTest]

theorem equalTest_iff {m : Modifier} {x y : Record} :
    equalTest m x y = true ↔ if m = .i then x = y else ∀ p ∈ pairs m, valueOf x p.1 = valueOf y p.2 := by
  by_cases h : m = .i
  · subst h
    simp [equalTest]
  · rw [if_neg h, equalTest]
    · simp only [List.all_eq_true, decide_eq_true_eq]
    · exact h

/-! ## The modifier tables -/

/-- No modifier selects a destination field twice. -/
theorem pairs_snd_nodup (m : Modifier) : ((pairs m).map (·.2)).Nodup := by cases m <;> decide

theorem tfields_nodup (m : Modifier) : (tfields m).Nodup := by cases m <;> decide

/-! ## Arithmetic -/

/-- The results written are those of the pairs with no zero divisor. -/
theorem writtenResults_map (ps : List (Sel × Sel)) (z : Sel × Sel → Prop) [DecidablePred z] (v : Sel × Sel → Nat) :
    writtenResults (ps.map fun p => (p.2, if z p then none else some (v p))) =
      (ps.filter fun p => decide (¬ z p)).map fun p => (p.2, v p) := by
  induction ps with
  | nil => rfl
  | cons p ps ih => by_cases h : z p <;> simp [writtenResults, h, ih]

/-- An arithmetic execute phase, its law given as a total function and the divisors for which it has no result. -/
theorem arithUnit_eq {law : Nat → Nat → Nat → Option Nat} {f : Nat → Nat → Nat → Nat} {z : Nat → Prop} [DecidablePred z]
    (hlaw : ∀ C x y, law C x y = if z y then none else some (f C x y)) (t : Turn) (s : State) :
    arithUnit law t s =
      (writeValues s t.o.daW (((pairs t.ir.mod).filter fun p => decide (¬ z (valueOf t.o.src p.1))).map
          fun p => (p.2, f s.cfg.coreSize (valueOf t.o.dst p.2) (valueOf t.o.src p.1))),
        if ∃ p ∈ pairs t.ir.mod, z (valueOf t.o.src p.1) then .death .divideByZero else advance t) := by
  have hnone : ((arithResults law s.cfg.coreSize t).any fun r => r.2.isNone) = true ↔
      ∃ p ∈ pairs t.ir.mod, z (valueOf t.o.src p.1) := by
    simp only [arithResults, hlaw, List.any_map, List.any_eq_true, Function.comp]
    exact exists_congr fun p => and_congr_right fun _ => by split <;> simp [*]
  rw [arithUnit]
  refine Prod.ext ?_ ?_
  · simp only [arithResults, hlaw]
    rw [writtenResults_map _ fun p => z (valueOf t.o.src p.1)]
  · simp only [hnone]

theorem addLaw_eq (C x y : Nat) : addLaw C x y = if False then none else some ((x + y) % C) := by
  rw [if_neg not_false, addLaw, Operands.modC_add_natCast]

theorem subLaw_eq (C x y : Nat) : subLaw C x y = if False then none else some (modC C ((x : Int) - y)) := by
  rw [if_neg not_false, subLaw]

theorem mulLaw_eq (C x y : Nat) : mulLaw C x y = if False then none else some (x * y % C) := by
  rw [if_neg not_false, mulLaw, ← Nat.cast_mul, modC_natCast]

theorem divLaw_eq (C x y : Nat) : divLaw C x y = if y = 0 then none else some (x / y) := rfl

theorem remLaw_eq (C x y : Nat) : remLaw C x y = if y = 0 then none else some (x % y) := rfl

section Arith

variable {i : Instr} {s : State} {w pc : Nat} {rest : List Nat} {law : Nat → Nat → Nat → Option Nat}
  {f : Nat → Nat → Nat → Nat} {z : Nat → Prop} [DecidablePred z]

/-- An arithmetic turn: the pairs with a result get it, and a selected zero divisor kills (42_arithmetic R151). -/
theorem exec_arith (hf : frontProcess s = some (w, pc, rest)) (hi : i.WellFormed s.cfg.coreSize)
    (hm : sparseWf coreFill s.core = true) (hop : executeUnit i.record.op = arithUnit law)
    (hlaw : ∀ C x y, law C x y = if z y then none else some (f C x y)) {q : List Nat}
    (hq : q = if ∃ p ∈ pairs i.record.mod, z (valueOf (operandsOf s pc i.record).src p.1) then []
      else [(pc + 1) % s.cfg.coreSize]) :
    let o := operandsOf s pc i.record
    let written := (pairs i.record.mod).filter fun p => decide (¬ z (valueOf o.src p.1))
    ∃ s', exec i s = .next s' ∧ TurnFrame s s' w pc i.record (some o.daW) (rest ++ q) ∧
      (∀ p ∈ written, valueOf (readCell s' o.daW) p.2 = f s.cfg.coreSize (valueOf o.dst p.2) (valueOf o.src p.1)) ∧
      SameButValues (memRead s.cfg.coreSize o.core o.daW) (readCell s' o.daW) (written.map (·.2)) := by
  intro o written
  have hunit := (congrFun₂ hop _ _).trans
    (arithUnit_eq hlaw (turnAt s w pc rest i.record) (opened s w pc rest i.record))
  refine exec_of_values (fld := fun p : Sel × Sel => p.2) hf hi hm ?_ hunit ?_
  · exact (pairs_snd_nodup _).sublist (List.filter_sublist.map _)
  · rw [hq, apply_ite (requeued s.cfg.coreSize)]
    rfl

/-- An arithmetic turn with no zero divisor: every selected pair gets its result. -/
theorem exec_arith_of_no_zero (hf : frontProcess s = some (w, pc, rest)) (hi : i.WellFormed s.cfg.coreSize)
    (hm : sparseWf coreFill s.core = true) (hop : executeUnit i.record.op = arithUnit law)
    (hlaw : ∀ C x y, law C x y = if z y then none else some (f C x y))
    (hz : ∀ p ∈ pairs i.record.mod, ¬ z (valueOf (operandsOf s pc i.record).src p.1)) :
    let o := operandsOf s pc i.record
    ∃ s', exec i s = .next s' ∧
      TurnFrame s s' w pc i.record (some o.daW) (rest ++ [(pc + 1) % s.cfg.coreSize]) ∧
      (∀ p ∈ pairs i.record.mod,
        valueOf (readCell s' o.daW) p.2 = f s.cfg.coreSize (valueOf o.dst p.2) (valueOf o.src p.1)) ∧
      SameButValues (memRead s.cfg.coreSize o.core o.daW) (readCell s' o.daW) ((pairs i.record.mod).map (·.2)) := by
  have hall : (pairs i.record.mod).filter (fun p => decide (¬ z (valueOf (operandsOf s pc i.record).src p.1))) =
      pairs i.record.mod := List.filter_eq_self.2 fun p hp => decide_eq_true (hz p hp)
  have hnone : ¬ ∃ p ∈ pairs i.record.mod, z (valueOf (operandsOf s pc i.record).src p.1) :=
    fun ⟨p, hp, h⟩ => hz p hp h
  obtain ⟨s', hexec, hframe, hvalues, hsame⟩ := exec_arith hf hi hm hop hlaw (if_neg hnone).symm
  rw [hall] at hvalues hsame
  exact ⟨s', hexec, hframe, hvalues, hsame⟩

/-- An arithmetic turn with a zero divisor: the process is gone, and the other pair has its result. -/
theorem exec_arith_of_zero (hf : frontProcess s = some (w, pc, rest)) (hi : i.WellFormed s.cfg.coreSize)
    (hm : sparseWf coreFill s.core = true) (hop : executeUnit i.record.op = arithUnit law)
    (hlaw : ∀ C x y, law C x y = if z y then none else some (f C x y))
    (hz : ∃ p ∈ pairs i.record.mod, z (valueOf (operandsOf s pc i.record).src p.1)) :
    let o := operandsOf s pc i.record
    let written := (pairs i.record.mod).filter fun p => decide (¬ z (valueOf o.src p.1))
    ∃ s', exec i s = .next s' ∧ TurnFrame s s' w pc i.record (some o.daW) rest ∧
      (∀ p ∈ written, valueOf (readCell s' o.daW) p.2 = f s.cfg.coreSize (valueOf o.dst p.2) (valueOf o.src p.1)) ∧
      SameButValues (memRead s.cfg.coreSize o.core o.daW) (readCell s' o.daW) (written.map (·.2)) ∧
      (queueOf s' w).length + 1 = (queueOf s w).length := by
  obtain ⟨s', hexec, hframe, hvalues, hsame⟩ := exec_arith hf hi hm hop hlaw (if_pos hz).symm
  rw [List.append_nil] at hframe
  refine ⟨s', hexec, hframe, hvalues, hsame, ?_⟩
  rw [queueOf_of_turnFrame hframe hf, (frontProcess_eq_some.1 hf).2, List.length_cons]

end Arith

end Sys2Proof.Proofs.Turn
end

section
/-! What no instruction touches: the bookkeeping registers, the other warriors, the shape of a cell (10_state R31). -/

namespace Sys2Proof.Proofs.Frame

open Sys2Proof Sys2Proof.Machine Sys2Proof.Proofs.Turn

/-! ## The other warriors -/

/-- Every id, and everything of the warriors other than `w`, is as it was. -/
structure OthersKept (s s' : State) (w : Nat) : Prop where
  ids : s'.warriors.map (·.id) = s.warriors.map (·.id)
  others : ∀ v, v ≠ w → s'.warriors[v]? = s.warriors[v]?

theorem OthersKept.of_warriors_eq {s s' : State} (h : s'.warriors = s.warriors) (w : Nat) : OthersKept s s' w :=
  ⟨by rw [h], fun _ _ => by rw [h]⟩

theorem OthersKept.trans {s s' s'' : State} {w : Nat} (h : OthersKept s s' w) (h' : OthersKept s' s'' w) :
    OthersKept s s'' w :=
  ⟨h'.ids.trans h.ids, fun v hv => (h'.others v hv).trans (h.others v hv)⟩

/-- Another warrior's activity is as it was. -/
theorem OthersKept.isActive_eq {s s' : State} {w v : Nat} (h : OthersKept s s' w) (hv : v ≠ w) :
    isActive s' v = isActive s v := by
  rw [isActive, isActive, queueOf_eq, queueOf_eq, h.others v hv]

theorem OthersKept.length_eq {s s' : State} {w : Nat} (h : OthersKept s s' w) :
    s'.warriors.length = s.warriors.length := by
  simpa using congrArg List.length h.ids

/-- An update of one warrior that keeps its id. -/
theorem othersKept_updateWarrior (s : State) (w : Nat) {f : Warrior → Warrior} (h : ∀ x, (f x).id = x.id) :
    OthersKept s (updateWarrior s w f) w := by
  refine ⟨List.ext_getElem? fun i => ?_, fun v hv => ?_⟩
  · rw [updateWarrior_warriors, List.getElem?_map, List.getElem?_map, List.getElem?_modify]
    cases s.warriors[i]? with
    | none => rfl
    | some x => by_cases hw : w = i <;> simp [hw, h]
  · rw [updateWarrior_warriors, List.getElem?_modify]
    simp [hv.symm]

theorem othersKept_setQueue (s : State) (w : Nat) (q : List Nat) : OthersKept s (setQueue s w q) w :=
  othersKept_updateWarrior s w fun _ => rfl

theorem othersKept_endTurn (s : State) (w : Nat) (out : TurnOut) : OthersKept s (endTurn s w out) w := by
  cases out with
  | next p => exact othersKept_setQueue s w _
  | split p t => exact (othersKept_setQueue s w _).trans (othersKept_setQueue _ w _)
  | death c => exact .of_warriors_eq rfl w

theorem othersKept_opened (s : State) (w pc : Nat) (rest : List Nat) (ir : Record) :
    OthersKept s (opened s w pc rest ir) w :=
  (othersKept_setQueue s w rest).trans (.of_warriors_eq (setCore_warriors _ _) w)

/-- An execute phase reaches no other warrior. -/
theorem othersKept_of_unitWrites {t : Turn} {s s' : State} (h : UnitWrites t s s') : OthersKept s s' t.w := by
  cases h with
  | none => exact .of_warriors_eq rfl _
  | values l _ => exact .of_warriors_eq (writeValues_warriors s _ l) _
  | record _ => exact .of_warriors_eq (writeCell_warriors s _ _) _
  | pspace f _ => exact othersKept_updateWarrior s t.w fun _ => rfl

/-! ## The end of a turn -/

@[simp] theorem endTurn_cfg (s : State) (w : Nat) (out : TurnOut) : (endTurn s w out).cfg = s.cfg := by
  cases out <;> rfl
@[simp] theorem endTurn_core (s : State) (w : Nat) (out : TurnOut) : (endTurn s w out).core = s.core := by
  cases out <;> rfl

theorem sameBookkeeping_endTurn (s : State) (w : Nat) (out : TurnOut) : SameBookkeeping s (endTurn s w out) := by
  cases out <;> exact ⟨rfl, rfl, rfl, rfl, rfl⟩

theorem sameBookkeeping_trans {s s' s'' : State} (h : SameBookkeeping s s') (h' : SameBookkeeping s' s'') :
    SameBookkeeping s s'' :=
  ⟨h'.cfg.trans h.cfg, h'.cycleCount.trans h.cycleCount, h'.turnPtr.trans h.turnPtr, h'.n0.trans h.n0,
    h'.status.trans h.status⟩

/-! ## One turn of any instruction -/

/-- All that an `exec` answering a next state did, with the execute phase by what it writes. -/
theorem exec_inversion {i : Instr} {s s' : State} (h : exec i s = .next s') :
    i.record.check s.cfg.coreSize = none ∧ ∃ w pc rest u out, frontProcess s = some (w, pc, rest) ∧
      executeUnit i.record.op (turnAt s w pc rest i.record) (opened s w pc rest i.record) = (u, out) ∧
      UnitWrites (turnAt s w pc rest i.record) (opened s w pc rest i.record) u ∧ s' = endTurn u w out := by
  obtain ⟨hi, w, pc, rest, hf, rfl⟩ := exec_next h
  exact ⟨hi, w, pc, rest, _, _, hf, rfl, executeUnit_writes (turnAt s w pc rest i.record) _ _ rfl, rfl⟩

/-- The bookkeeping and the other warriors, through any instruction's turn (10_state R31). -/
theorem exec_frame {i : Instr} {s s' : State} (h : exec i s = .next s') {w pc : Nat} {rest : List Nat}
    (hf : frontProcess s = some (w, pc, rest)) : SameBookkeeping s s' ∧ OthersKept s s' w := by
  obtain ⟨-, w', pc', rest', u, out, hf', -, hu, rfl⟩ := exec_inversion h
  obtain ⟨rfl, rfl, rfl⟩ := frontProcess_unique hf hf'
  obtain ⟨hbook, -, -⟩ := hu.frame
  have hopen : SameBookkeeping s (opened s w pc rest i.record) := ⟨rfl, rfl, rfl, rfl, rfl⟩
  exact ⟨sameBookkeeping_trans (sameBookkeeping_trans hopen hbook) (sameBookkeeping_endTurn u w out),
    ((othersKept_opened s w pc rest i.record).trans (othersKept_of_unitWrites hu)).trans (othersKept_endTurn u w out)⟩

/-! ## The shape of a cell -/

/-- A change of some field values is a change of at most both. -/
theorem sameButValues_widen {r r' : Record} {fs : List Sel} (h : SameButValues r r' fs) : SameButValues r r' [.a, .b] :=
  ⟨h.op, h.mod, h.aMode, h.bMode, fun f hf => by cases f <;> simp at hf⟩

theorem sameButValues_trans {r r' r'' : Record} {fs : List Sel} (h : SameButValues r r' fs)
    (h' : SameButValues r' r'' fs) : SameButValues r r'' fs :=
  ⟨h'.op.trans h.op, h'.mod.trans h.mod, h'.aMode.trans h.aMode, h'.bMode.trans h.bMode,
    fun f hf => (h'.other f hf).trans (h.other f hf)⟩

theorem sameButValues_refl (r : Record) (fs : List Sel) : SameButValues r r fs := ⟨rfl, rfl, rfl, rfl, fun _ _ => rfl⟩

/-- An execute phase other than MOV.I's writes field values only. -/
theorem sameButValues_of_unitWrites {t : Turn} {s s' : State} (h : UnitWrites t s s')
    (hm : sparseWf coreFill s.core = true) (hne : ¬ (t.ir.op = .mov ∧ t.ir.mod = .i)) (x : Nat) :
    SameButValues (readCell s x) (readCell s' x) [.a, .b] := by
  cases h with
  | none => exact sameButValues_refl _ _
  | values l _ => exact sameButValues_widen (writeValues_sameButValues hm _ l x)
  | record h => exact absurd h hne
  | pspace f _ => exact sameButValues_refl _ _

/-! ## The obligations -/

/-- Settles O35: the resolutions and the execute phase each change values only. -/
theorem onlyMovWholeWritesMoreThanValues : Obligations.OnlyMovWholeWritesMoreThanValues := by
  intro i s s' hm h hne x
  obtain ⟨-, w, pc, rest, u, out, hf, -, hu, rfl⟩ := exec_inversion h
  have hne' : ¬ (i.record.op = .mov ∧ i.record.mod = .i) := by
    rintro ⟨hop, hmod⟩
    cases i with
    | mov m a b => exact hne a b (congrArg (Instr.mov · a b) hmod)
    | _ => cases hop
  have hresolve := prepare_sameButValues (cfg := s.cfg) hm pc i.record x
  have hwrite := sameButValues_of_unitWrites hu (opened_wf hm w pc rest i.record) hne' x
  have hend : readCell (endTurn u w out) x = readCell u x := by
    rw [readCell, endTurn_cfg, endTurn_core, readCell]
  rw [hend]
  exact sameButValues_trans hresolve hwrite

/-- Settles O36: dequeue, execute phase and requeue each keep all but the front process's warrior. -/
theorem instructionsTouchOnlyTheirOwnWarrior : Obligations.InstructionsTouchOnlyTheirOwnWarrior := by
  intro i s s' h
  obtain ⟨-, w, pc, rest, -, -, hf, -⟩ := exec_inversion h
  obtain ⟨hbook, hids, hothers⟩ := exec_frame h hf
  exact ⟨hbook, hids, w, pc, rest, hf, hothers⟩

/-- Settles O37: of the three answers of a turn, only that of a failed check is a refusal. -/
theorem invalidInstructionsAreRefused : Obligations.InvalidInstructionsAreRefused := by
  intro i s
  rw [wellFormed_iff, exec_eq_runTurn]
  rcases runTurn_cases i.record (executeUnit i.record.op) s with
    ⟨e, hi, h⟩ | ⟨hi, -, h⟩ | ⟨w, pc, rest, hi, -, s', h⟩
  · simp [hi, h]
  · simp [hi, h]
  · simp [hi, h]

end Sys2Proof.Proofs.Frame
end

section
/-! What each instruction leaves: its turn through the rules of the turn (41_dat_mov to 46_nop). -/

namespace Sys2Proof.Proofs.Instructions

open Sys2Proof Sys2Proof.Machine Sys2Proof.Proofs.Turn Sys2Proof.Proofs.Frame

/-! ## Instructions that write nothing -/

/-- Settles O13: the death enqueues nothing, and the queue that the frame names decides whether the warrior lives. -/
theorem datEndsItsProcess : Obligations.DatEndsItsProcess := by
  intro s w pc rest m a b hf hi
  obtain ⟨s', hexec, hframe⟩ := exec_of_no_write hf hi rfl (q := []) rfl
  rw [List.append_nil] at hframe
  exact ⟨s', hexec, hframe, by rw [isActive_iff, queueOf_of_turnFrame hframe hf]⟩

/-- Settles O22: the windowed address is a residue, so that the requeue leaves it as it is. -/
theorem jmpGoesToTheSourceAddress : Obligations.JmpGoesToTheSourceAddress := by
  intro s w pc rest m a b hf hi ir
  exact exec_of_no_write hf hi rfl (congrArg (· :: []) (prepare_saR_mod s.cfg pc ir s.core))

/-- Settles O23: the jump test is over the destination snapshot's selected fields. -/
theorem jmzJumpsIfAllZero : Obligations.JmzJumpsIfAllZero := by
  intro s w pc rest m a b hf hi ir o
  exact exec_of_no_write hf hi rfl (requeued_jumpIf s w pc rest ir allZero_iff)

/-- Settles O24: JMZ's fields, one of them not zero. -/
theorem jmnJumpsIfAnyNonzero : Obligations.JmnJumpsIfAnyNonzero := by
  intro s w pc rest m a b hf hi ir o
  exact exec_of_no_write hf hi rfl (requeued_jumpIf s w pc rest ir anyNonzero_iff)

/-- Settles O26: the limit is compared with the queue as it stood before the dequeue. -/
theorem splSplitsBelowTheLimit : Obligations.SplSplitsBelowTheLimit := by
  intro s w pc rest m a b hf hi ir
  have hcount : (queueOf s w).length = rest.length + 1 := by rw [(frontProcess_eq_some.1 hf).2, List.length_cons]
  refine exec_of_no_write hf hi rfl ?_
  rw [hcount, ← prepare_saR_mod s.cfg pc ir s.core]
  exact apply_ite (requeued s.cfg.coreSize) _ _ _

/-- Settles O27: SEQ's record is CMP's, so that one turn serves both. -/
theorem cmpAndSeqSkipIfEqual : Obligations.CmpAndSeqSkipIfEqual := by
  intro s w pc rest m a b i hcmp hf hi ir o
  rcases hcmp with rfl | rfl
  · exact exec_of_no_write hf hi rfl (requeued_skipIf _ (turnAt s w pc rest ir) equalTest_iff)
  · exact exec_of_no_write hf hi rfl (requeued_skipIf _ (turnAt s w pc rest ir) equalTest_iff)

/-- SNE's test, as the opposite of CMP's. -/
theorem not_equalTest_iff {m : Modifier} {x y : Record} :
    (!equalTest m x y) = true ↔ if m = .i then x ≠ y else ∃ p ∈ pairs m, valueOf x p.1 ≠ valueOf y p.2 := by
  rw [Bool.not_eq_true', ← Bool.not_eq_true, equalTest_iff]
  split_ifs
  · rfl
  · simp only [not_forall, exists_prop, ne_eq]

/-- Settles O28: CMP's turn with the test turned round. -/
theorem sneSkipsIfDifferent : Obligations.SneSkipsIfDifferent := by
  intro s w pc rest m a b hf hi ir o
  exact exec_of_no_write hf hi rfl (requeued_skipIf _ (turnAt s w pc rest ir) not_equalTest_iff)

/-- Settles O29: every selected pair less. -/
theorem sltSkipsIfAllLess : Obligations.SltSkipsIfAllLess := by
  intro s w pc rest m a b hf hi ir o
  exact exec_of_no_write hf hi rfl (requeued_skipIf _ (turnAt s w pc rest ir) lessTest_iff)

/-- Settles O32: the operands' resolution is all that the frame names. -/
theorem nopOnlyAdvances : Obligations.NopOnlyAdvances := by
  intro s w pc rest m a b hf hi
  exact exec_of_no_write hf hi rfl rfl

/-! ## MOV, DJN and LDP -/

/-- Settles O14: the one store of a whole record. -/
theorem movWholeCopiesTheRecord : Obligations.MovWholeCopiesTheRecord := by
  intro s w pc rest a b hf hi hm ir o
  have hexec := exec_of_core (core := memWrite s.cfg.coreSize o.core o.daW o.src) (out := .next (pc + 1)) hf hi rfl
  refine ⟨_, hexec, turnFrame_closed fun x hx => ?_, memRead_memWrite_same (prepare_wf hm pc ir) rfl _⟩
  exact memRead_memWrite_other o.core (fun he => hx (by rw [he, prepare_daW_mod])) _

/-- MOV's execute phase under every modifier but I. -/
theorem movUnit_of_ne_i {t : Turn} (h : t.ir.mod ≠ .i) (s : State) :
    movUnit t s = (writeValues s t.o.daW ((pairs t.ir.mod).map fun p => (p.2, valueOf t.o.src p.1)), advance t) := by
  unfold movUnit
  split
  · next hi => exact absurd hi h
  · rfl

/-- Settles O15: the pairs' destination fields are different, so that each keeps the value written to it. -/
theorem movCopiesTheSelectedValues : Obligations.MovCopiesTheSelectedValues := by
  intro s w pc rest m a b hne hf hi hm ir o
  exact exec_of_values (fld := fun p : Sel × Sel => p.2) (v := fun p => valueOf o.src p.1) hf hi hm (pairs_snd_nodup m)
    (movUnit_of_ne_i (t := turnAt s w pc rest ir) hne _) rfl

/-- DJN's test: some decremented value is not zero. -/
theorem any_djnResults {C : Nat} {t : Turn} :
    ((djnResults C t).any fun r => decide (r.2 ≠ 0)) = true ↔
      ∃ f ∈ tfields t.ir.mod, modC C ((valueOf t.o.dst f : Int) - 1) ≠ 0 := by
  simp [djnResults]

/-- Settles O25: the values written are the values tested. -/
theorem djnDecrementsThenJumpsIfAnyNonzero : Obligations.DjnDecrementsThenJumpsIfAnyNonzero := by
  intro s w pc rest m a b hf hi hm ir o dec
  have hnd : ((tfields m).map id).Nodup := by rw [List.map_id]; exact tfields_nodup m
  obtain ⟨s', hexec, hframe, hvalues, hsame⟩ := exec_of_values (fld := id) (v := dec) hf hi hm hnd rfl
    (requeued_jumpIf s w pc rest ir any_djnResults)
  rw [List.map_id] at hsame
  exact ⟨s', hexec, hframe, hvalues, hsame⟩

theorem destLetter_eq (m : Modifier) : destLetter m = if m = .a ∨ m = .ba then .a else .b := by cases m <;> rfl

theorem sourceLetter_eq (m : Modifier) : sourceLetter m = if m = .a ∨ m = .ab then .a else .b := by cases m <;> rfl

/-- LDP's execute phase in the opened turn: no operand's resolution reached the p-space it reads. -/
theorem ldpUnit_opened (s : State) (w pc : Nat) (rest : List Nat) (ir : Record) :
    ldpUnit (turnAt s w pc rest ir) (opened s w pc rest ir) =
      (writeValues (opened s w pc rest ir) (operandsOf s pc ir).daW
        [(destLetter ir.mod,
          sparseRead pspaceFill (pspaceOf s w) (pspaceIndex ir (operandsOf s pc ir) % s.cfg.pspaceSize) %
            s.cfg.coreSize)],
        advance (turnAt s w pc rest ir)) := by
  rw [← pspaceOf_opened s w pc rest ir, ← modC_natCast]
  rfl

/-- Settles O30: LDP is a write of one field value, read from the p-space as the turn found it. -/
theorem ldpLoadsFromOwnPSpace : Obligations.LdpLoadsFromOwnPSpace := by
  intro s w pc rest m a b hf hi hm ir o f idx
  have hunit := ldpUnit_opened s w pc rest ir
  rw [destLetter_eq] at hunit
  obtain ⟨s', hexec, hframe, hvalues, hsame⟩ := exec_of_values (ps := [f]) (fld := id)
    (v := fun _ => sparseRead pspaceFill (pspaceOf s w) idx % s.cfg.coreSize) hf hi hm (by simp) hunit rfl
  exact ⟨s', hexec, hframe, hvalues f (List.mem_singleton_self f), hsame⟩

/-! ## Arithmetic -/

/-- Settles O16: the law has a result for every divisor. -/
theorem addAddsModuloTheCoreSize : Obligations.AddAddsModuloTheCoreSize := by
  intro s w pc rest m a b hf hi hm ir o
  exact exec_arith_of_no_zero hf hi hm rfl addLaw_eq fun _ _ => not_false

/-- Settles O17: as ADD, with the difference. -/
theorem subSubtractsModuloTheCoreSize : Obligations.SubSubtractsModuloTheCoreSize := by
  intro s w pc rest m a b hf hi hm ir o
  exact exec_arith_of_no_zero hf hi hm rfl subLaw_eq fun _ _ => not_false

/-- Settles O18: as ADD, with the product. -/
theorem mulMultipliesModuloTheCoreSize : Obligations.MulMultipliesModuloTheCoreSize := by
  intro s w pc rest m a b hf hi hm ir o
  exact exec_arith_of_no_zero hf hi hm rfl mulLaw_eq fun _ _ => not_false

/-- Settles O19: no selected divisor is zero, so that every pair has its quotient. -/
theorem divDividesUnsigned : Obligations.DivDividesUnsigned := by
  intro s w pc rest m a b hf hi hm ir o hz
  exact exec_arith_of_no_zero hf hi hm rfl divLaw_eq hz

/-- Settles O20: as DIV, with the remainder. -/
theorem modLeavesTheUnsignedRemainder : Obligations.ModLeavesTheUnsignedRemainder := by
  intro s w pc rest m a b hf hi hm ir o hz
  exact exec_arith_of_no_zero hf hi hm rfl remLaw_eq hz

/-- Settles O21: the queue is what the dequeue left, and the pairs with a divisor are written. -/
theorem zeroDivisorEndsTheProcess : Obligations.ZeroDivisorEndsTheProcess := by
  intro s w pc rest m a b op i law hlaw hf hi hm ir o written hz
  rcases hlaw with ⟨rfl, rfl, rfl⟩ | ⟨rfl, rfl, rfl⟩
  · exact exec_arith_of_zero hf hi hm rfl divLaw_eq hz
  · exact exec_arith_of_zero hf hi hm rfl remLaw_eq hz

/-! ## STP -/

theorem pspaceOf_pWrite_same {s : State} {w : Nat} (h : w < s.warriors.length) (i v : Nat) :
    pspaceOf (pWrite s w i v) w = sparseWrite pspaceFill (pspaceOf s w) (i % s.cfg.pspaceSize) v := by
  simp [pspaceOf_eq, pWrite, List.getElem?_eq_getElem h]

/-- STP's turn: one p-space write, then the requeue. -/
theorem execStp_eq {s : State} {w pc : Nat} {rest : List Nat} {m : Modifier} {a b : InstrField}
    (hf : frontProcess s = some (w, pc, rest)) (hi : (Instr.stp m a b).WellFormed s.cfg.coreSize) :
    let ir : Record := ⟨.stp, m, a, b⟩
    let o := operandsOf s pc ir
    exec (.stp m a b) s = .next (setQueue
      (pWrite (opened s w pc rest ir) w (pspaceIndex ir o) (valueOf o.src (sourceLetter m))) w
      (rest ++ [(pc + 1) % s.cfg.coreSize])) := by
  intro ir o
  have hw : w < (opened s w pc rest ir).warriors.length := by simpa [opened] using frontProcess_lt hf
  have hw' : w < (pWrite (opened s w pc rest ir) w (pspaceIndex ir o)
      (valueOf o.src (sourceLetter m))).warriors.length := by
    simpa [pWrite] using hw
  have hq : queueOf (opened s w pc rest ir) w = rest := queueOf_setQueue_same (frontProcess_lt hf) rest
  refine (exec_eq_endTurn hf hi).trans (congrArg Host.Outcome.next ((endTurn_eq hw' (.next (pc + 1))).trans ?_))
  rw [queueOf_pWrite, hq]
  rfl

/-- Settles O31: the p-space write and the requeue are two updates of the one warrior. -/
theorem stpStoresIntoOwnPSpace : Obligations.StpStoresIntoOwnPSpace := by
  intro s w pc rest m a b hf hi hps ir o f idx
  have hexec := execStp_eq hf hi
  rw [sourceLetter_eq] at hexec
  obtain ⟨hbook, hids, hothers⟩ := exec_frame hexec hf
  have hw : w < (opened s w pc rest ir).warriors.length := by simpa [opened] using frontProcess_lt hf
  have hpspace (q : List Nat) :
      pspaceOf (setQueue (pWrite (opened s w pc rest ir) w (pspaceIndex ir o) (valueOf o.src f)) w q) w =
        sparseWrite pspaceFill (pspaceOf s w) idx (valueOf o.src f) := by
    rw [pspaceOf_setQueue, pspaceOf_pWrite_same hw, pspaceOf_opened]
    rfl
  refine ⟨_, hexec, hbook, fun x ha hb _ => prepare_frame s.core ha hb, fun _ _ => rfl, ?_, hids, hothers, ?_,
    fun j hj => ?_⟩
  · exact queueOf_setQueue_same (by simpa [pWrite] using hw) _
  · rw [hpspace, sparseRead_write_same hps]
  · rw [hpspace, sparseRead_write_other _ _ hj]

/-! ## Opposite tests -/

section Snapshots

variable (cfg : Cfg) (pc : Nat) (op op' : Opcode) (m : Modifier) (a b : InstrField) (core : CoreMem)

/-- The field values of the snapshots do not depend on the opcode latched. -/
theorem valueOf_src_opcode (f : Sel) :
    valueOf (prepare cfg pc ⟨op, m, a, b⟩ core).src f = valueOf (prepare cfg pc ⟨op', m, a, b⟩ core).src f := by
  simp only [prepare]
  split
  · cases f <;> rfl
  · rfl

theorem valueOf_dst_opcode (f : Sel) :
    valueOf (prepare cfg pc ⟨op, m, a, b⟩ core).dst f = valueOf (prepare cfg pc ⟨op', m, a, b⟩ core).dst f := by
  simp only [prepare]
  split
  · cases f <;> rfl
  · rfl

/-- With operands in core the snapshots are cells, whatever the opcode latched. -/
theorem snapshots_opcode_of_ne_immediate (ha : a.mode ≠ .immediate) (hb : b.mode ≠ .immediate) :
    (prepare cfg pc ⟨op, m, a, b⟩ core).src = (prepare cfg pc ⟨op', m, a, b⟩ core).src ∧
      (prepare cfg pc ⟨op, m, a, b⟩ core).dst = (prepare cfg pc ⟨op', m, a, b⟩ core).dst := by
  simp [prepare, ha, hb]

end Snapshots

/-- The queue after a turn whose frame is known. -/
theorem queueOf_of_exec {i : Instr} {s s' : State} {w pc : Nat} {rest q : List Nat} {ir : Record} {target : Option Nat}
    (hf : frontProcess s = some (w, pc, rest)) (h : exec i s = .next s')
    (hturn : ∃ s₁, exec i s = .next s₁ ∧ TurnFrame s s₁ w pc ir target q) : queueOf s' w = q := by
  obtain ⟨s₁, hexec, hframe⟩ := hturn
  obtain rfl : s₁ = s' := by simpa using hexec.symm.trans h
  exact queueOf_of_turnFrame hframe hf

/-- Of two opposite tests exactly one is met. -/
theorem opposite_ite {P Q : Prop} [Decidable P] [Decidable Q] (h : Q ↔ ¬ P) (rest : List Nat) (x y : Nat) :
    (rest ++ [if P then x else y] = rest ++ [x] ∧ rest ++ [if Q then x else y] = rest ++ [y]) ∨
      (rest ++ [if P then x else y] = rest ++ [y] ∧ rest ++ [if Q then x else y] = rest ++ [x]) := by
  by_cases hP : P
  · exact .inl ⟨by rw [if_pos hP], by rw [if_neg (mt h.1 (not_not.2 hP))]⟩
  · exact .inr ⟨by rw [if_neg hP], by rw [if_pos (h.2 hP)]⟩

/-- On one pair of operands JMN's test is the opposite of JMZ's. -/
theorem jmnTest_iff_not_jmzTest (s : State) (pc : Nat) (m : Modifier) (a b : InstrField) :
    (∃ f ∈ tfields m, valueOf (operandsOf s pc ⟨.jmn, m, a, b⟩).dst f ≠ 0) ↔
      ¬ ∀ f ∈ tfields m, valueOf (operandsOf s pc ⟨.jmz, m, a, b⟩).dst f = 0 := by
  simp only [operandsOf, valueOf_dst_opcode s.cfg pc .jmn .jmz, not_forall, exists_prop, ne_eq]

/-- On one pair of operands SNE's test is the opposite of CMP's; under I the operands must be in core. -/
theorem sneTest_iff_not_cmpTest (s : State) (pc : Nat) {m : Modifier} {a b : InstrField}
    (hmode : m ≠ .i ∨ (a.mode ≠ .immediate ∧ b.mode ≠ .immediate)) {sne cmp : Operands}
    (hsne : sne = operandsOf s pc ⟨.sne, m, a, b⟩) (hcmp : cmp = operandsOf s pc ⟨.cmp, m, a, b⟩) :
    (if m = .i then sne.src ≠ sne.dst else ∃ p ∈ pairs m, valueOf sne.src p.1 ≠ valueOf sne.dst p.2) ↔
      ¬ if m = .i then cmp.src = cmp.dst else ∀ p ∈ pairs m, valueOf cmp.src p.1 = valueOf cmp.dst p.2 := by
  have hsrc (f : Sel) : valueOf sne.src f = valueOf cmp.src f := by rw [hsne, hcmp]; exact valueOf_src_opcode ..
  have hdst (f : Sel) : valueOf sne.dst f = valueOf cmp.dst f := by rw [hsne, hcmp]; exact valueOf_dst_opcode ..
  by_cases hm : m = .i
  · obtain ⟨ha, hb⟩ := hmode.resolve_left (not_not.2 hm)
    have hwhole : sne.src = cmp.src ∧ sne.dst = cmp.dst := by
      rw [hsne, hcmp]; exact snapshots_opcode_of_ne_immediate _ _ _ _ _ _ _ _ ha hb
    rw [if_pos hm, if_pos hm, hwhole.1, hwhole.2]
  · rw [if_neg hm, if_neg hm]
    simp only [hsrc, hdst, not_forall, exists_prop, ne_eq]

/-- Settles O33: both snapshots have the same field values, which is all that either test reads. -/
theorem jmnJumpsExactlyWhenJmzDoesNot : Obligations.JmnJumpsExactlyWhenJmzDoesNot := by
  intro s s1 s2 w pc rest m a b hf h1 h2 target onward
  have hi1 : (Instr.jmz m a b).WellFormed s.cfg.coreSize := wellFormed_iff.2 (exec_next h1).1
  have hi2 : (Instr.jmn m a b).WellFormed s.cfg.coreSize := wellFormed_iff.2 (exec_next h2).1
  rw [queueOf_of_exec hf h1 (jmzJumpsIfAllZero s w pc rest m a b hf hi1),
    queueOf_of_exec hf h2 (jmnJumpsIfAnyNonzero s w pc rest m a b hf hi2)]
  exact opposite_ite (jmnTest_iff_not_jmzTest s pc m a b) rest target onward

/-- Settles O34: both tests are made on one pair of snapshots, and one is the opposite of the other. -/
theorem sneSkipsExactlyWhenCmpDoesNot : Obligations.SneSkipsExactlyWhenCmpDoesNot := by
  intro s s1 s2 w pc rest m a b hmode hf h1 h2 skip onward
  have hi1 : (Instr.cmp m a b).WellFormed s.cfg.coreSize := wellFormed_iff.2 (exec_next h1).1
  have hi2 : (Instr.sne m a b).WellFormed s.cfg.coreSize := wellFormed_iff.2 (exec_next h2).1
  rw [queueOf_of_exec hf h1 (cmpAndSeqSkipIfEqual s w pc rest m a b _ (.inl rfl) hf hi1),
    queueOf_of_exec hf h2 (sneSkipsIfDifferent s w pc rest m a b hf hi2)]
  exact opposite_ite (sneTest_iff_not_cmpTest s pc hmode rfl rfl) rest skip onward

end Sys2Proof.Proofs.Instructions
end

section
/-! One scheduler turn: whose it is, what it runs, the cursor, the pass counter, the end test and the turn's event
(60_exceptions R259 to R264). -/

namespace Sys2Proof.Proofs.Scheduler

open Sys2Proof Sys2Proof.Machine Sys2Proof.Proofs.Turn Sys2Proof.Proofs.Frame Sys2Proof.Proofs.Elimination
  Sys2Proof.Proofs.Encoding

/-! ## One step of a Running match -/

section Step

variable {s s' : State} {w pc : Nat} {rest : List Nat}

theorem step_of_ended {o : MatchOutcome} (h : s.status = .ended o) : step s = .next s := by
  simp only [step, h]

/-- A step runs the cell at the front process's counter and finishes the turn. -/
theorem step_of_exec (hr : s.status = .running) (hf : frontProcess s = some (w, pc, rest)) {s₁ : State}
    (h : exec (readCell s pc).instr (beginPass s) = .next s₁) : step s = .next (finishTurn s₁ w) := by
  have hfetch : fetch (beginPass s) = some (w, (readCell s pc).instr) := by simp [fetch, hf, readCell]
  simp only [step, hr, hfetch, h]

/-- The cell at the front process's counter runs where it is valid. -/
theorem exists_step (hr : s.status = .running) (hf : frontProcess s = some (w, pc, rest))
    (hc : (readCell s pc).check s.cfg.coreSize = none) :
    ∃ s₁, exec (readCell s pc).instr (beginPass s) = .next s₁ ∧ step s = .next (finishTurn s₁ w) := by
  have hi : (readCell s pc).instr.WellFormed (beginPass s).cfg.coreSize := by
    rw [wellFormed_iff, record_instr, beginPass_cfg, hc]
  have hexec := exec_eq_endTurn (by rw [frontProcess_beginPass, hf]) hi
  exact ⟨_, hexec, step_of_exec hr hf hexec⟩

/-- All that a step of a Running match did: one turn of the front process. -/
theorem step_running (hr : s.status = .running) (h : step s = .next s') :
    ∃ w pc rest s₁, frontProcess s = some (w, pc, rest) ∧
      exec (readCell s pc).instr (beginPass s) = .next s₁ ∧ s' = finishTurn s₁ w := by
  obtain ⟨o, ho, -⟩ | ⟨-, hstep⟩ := step_next h
  · simp [hr] at ho
  · exact hstep

theorem step_running_front (hr : s.status = .running) (hf : frontProcess s = some (w, pc, rest))
    (h : step s = .next s') : ∃ s₁, exec (readCell s pc).instr (beginPass s) = .next s₁ ∧ s' = finishTurn s₁ w := by
  obtain ⟨w', pc', rest', s₁, hf', hexec, hs'⟩ := step_running hr h
  obtain ⟨rfl, rfl, rfl⟩ := frontProcess_unique hf hf'
  exact ⟨s₁, hexec, hs'⟩

/-- The bookkeeping and the other warriors, through a whole step. -/
theorem step_frame (hf : frontProcess s = some (w, pc, rest)) {s₁ : State}
    (h : exec (readCell s pc).instr (beginPass s) = .next s₁) :
    (finishTurn s₁ w).cfg = s.cfg ∧ (finishTurn s₁ w).n0 = s.n0 ∧
      (finishTurn s₁ w).cycleCount = (if s.turnPtr = 0 then s.cycleCount + 1 else s.cycleCount) ∧
      OthersKept s (finishTurn s₁ w) w := by
  obtain ⟨hbook, hothers⟩ := exec_frame h (by rw [frontProcess_beginPass, hf])
  refine ⟨hbook.cfg.trans (beginPass_cfg s), hbook.n0.trans (beginPass_n0 s),
    hbook.cycleCount.trans (beginPass_cycleCount s), ?_⟩
  exact ((OthersKept.of_warriors_eq (beginPass_warriors s) w).trans hothers).trans
    (.of_warriors_eq (s := s₁) (s' := finishTurn s₁ w) rfl w)

end Step

/-! ## The cursor -/

theorem finishTurn_turnPtr (s : State) (w : Nat) :
    (finishTurn s w).turnPtr = if laterActive s w then w + 1 else 0 := rfl

theorem laterActive_eq_false_iff {s : State} {w : Nat} :
    laterActive s w = false ↔ ∀ i, w < i → queueOf s i = [] := by
  rw [← Bool.not_eq_true, laterActive_iff]
  simp only [not_exists, not_and, isActive_iff, ne_eq, not_not]

/-! ## The end test -/

/-- The end condition, clause by clause (60_exceptions R263). -/
theorem endCondition_iff {s : State} :
    endCondition s = true ↔
      activeCount s ≤ (if 2 ≤ s.n0 then 1 else 0) ∨ (s.cfg.maxCycles ≤ s.cycleCount ∧ s.turnPtr = 0) := by
  rw [endCondition, Bool.or_eq_true, Bool.and_eq_true, decide_eq_true_eq, decide_eq_true_eq, decide_eq_true_eq]
  rfl

theorem statusOf_eq_running {s : State} : statusOf s = .running ↔ ¬ endCondition s = true := by
  unfold statusOf
  split <;> simp [*]

theorem statusOf_of_endCondition {s : State} (h : endCondition s = true) : statusOf s = .ended (outcome s) := by
  rw [statusOf, if_pos h]

/-- The three outcomes of 60_exceptions R264. -/
theorem outcome_win {s : State} {id : Nat} (hn : 2 ≤ s.n0) (h : activeIds s = [id]) : outcome s = .win id := by
  have hfew : activeCount s ≤ endThreshold s := by simp [activeCount, endThreshold, h, hn]
  simp only [outcome, if_pos hfew, if_pos hn, h]

theorem outcome_lone {s : State} (hn : ¬ 2 ≤ s.n0) (h : activeCount s ≤ endThreshold s) : outcome s = .draw [] := by
  rw [outcome, if_pos h, if_neg hn]

theorem outcome_limit {s : State} (h : ¬ activeCount s ≤ endThreshold s) : outcome s = .draw (activeIds s) := by
  rw [outcome, if_neg h]

/-- A finished turn has made the end test. -/
theorem finishTurn_status (s : State) (w : Nat) : (finishTurn s w).status = statusOf (finishTurn s w) := rfl

/-! ## The turn's event -/

/-- The event of a Running match's turn. -/
theorem turnEvent_eq {s : State} {w pc : Nat} {rest : List Nat} (hr : s.status = .running)
    (hf : frontProcess s = some (w, pc, rest)) :
    let ir := readCell s pc
    turnEvent s = some
      { cycleCount := (beginPass s).cycleCount, w := w, pc := pc, ir := ir,
        out := (executeUnit ir.op (turnAt (beginPass s) w pc rest ir) (opened (beginPass s) w pc rest ir)).2.reduced
          s.cfg.coreSize } := by
  have hf' : frontProcess (beginPass s) = some (w, pc, rest) := by rw [frontProcess_beginPass, hf]
  simp only [turnEvent, hr, hf', openTurn_eq hf']
  rfl

/-- Where there is an event, there is a turn, and the event is that turn's. -/
theorem turnEvent_inversion {s : State} {e : TurnEvent} (h : turnEvent s = some e) :
    s.status = .running ∧ ∃ w pc rest, frontProcess s = some (w, pc, rest) := by
  cases hr : s.status with
  | ended o => simp [turnEvent, hr] at h
  | running =>
    refine ⟨rfl, ?_⟩
    cases hf : frontProcess s with
    | none => simp [turnEvent, hr, hf] at h
    | some p => exact ⟨p.1, p.2.1, p.2.2, rfl⟩

/-! ## Who dies -/

theorem skipIf_ne_death (t : Turn) (taken : Bool) (c : DeathCause) : skipIf t taken ≠ .death c := by
  cases taken <;> simp [skipIf, advance]

theorem jumpIf_ne_death (t : Turn) (taken : Bool) (c : DeathCause) : jumpIf t taken ≠ .death c := by
  cases taken <;> simp [jumpIf, advance]

theorem advance_ne_death (t : Turn) (c : DeathCause) : advance t ≠ .death c := by simp [advance]

/-- An arithmetic phase kills exactly at a selected divisor for which its law has no result. -/
theorem arithUnit_death {law : Nat → Nat → Nat → Option Nat} {f : Nat → Nat → Nat → Nat} {z : Nat → Prop}
    [DecidablePred z] (hlaw : ∀ C x y, law C x y = if z y then none else some (f C x y)) (t : Turn) (s : State)
    (c : DeathCause) :
    (arithUnit law t s).2 = .death c ↔ c = .divideByZero ∧ ∃ p ∈ pairs t.ir.mod, z (valueOf t.o.src p.1) := by
  rw [arithUnit_eq hlaw]
  dsimp only
  split
  · next h => simp [h, eq_comm]
  · next h => simp [h, advance_ne_death]

/-- What an execute phase must be to kill, and with which cause (60_exceptions R241). -/
def Kills (op : Opcode) (t : Turn) (c : DeathCause) : Prop :=
  (c = .datExecuted ∧ op = .dat) ∨
    (c = .divideByZero ∧ (op = .div ∨ op = .mod) ∧ ∃ p ∈ pairs t.ir.mod, valueOf t.o.src p.1 = 0)

theorem executeUnit_death (op : Opcode) (t : Turn) (s : State) (c : DeathCause) :
    (executeUnit op t s).2 = .death c ↔ Kills op t c := by
  cases op
  case dat => simp [executeUnit, datUnit, Kills, eq_comm]
  case mov =>
    have : (movUnit t s).2 = advance t := by unfold movUnit; split <;> rfl
    simp [executeUnit, this, Kills, advance_ne_death]
  case add => exact (arithUnit_death addLaw_eq t s c).trans (by simp [Kills])
  case sub => exact (arithUnit_death subLaw_eq t s c).trans (by simp [Kills])
  case mul => exact (arithUnit_death mulLaw_eq t s c).trans (by simp [Kills])
  case div => exact (arithUnit_death divLaw_eq t s c).trans (by simp [Kills])
  case mod => exact (arithUnit_death remLaw_eq t s c).trans (by simp [Kills])
  case jmp => simp [executeUnit, jmpUnit, Kills]
  case spl =>
    simp only [executeUnit, splUnit, Kills]
    split <;> simp [advance_ne_death]
  case jmz | jmn | djn => exact iff_of_false (jumpIf_ne_death t _ c) (by simp [Kills])
  case cmp | sne | slt => exact iff_of_false (skipIf_ne_death t _ c) (by simp [Kills])
  case ldp | stp | nop => exact iff_of_false (advance_ne_death t c) (by simp [Kills])

theorem reduced_eq_death {C : Nat} {out : TurnOut} {c : DeathCause} : out.reduced C = .death c ↔ out = .death c := by
  cases out <;> simp [TurnOut.reduced]

/-! ## The obligations -/

/-- Settles O39: the least Active index at or after the cursor, and the front of its queue. -/
theorem theTurnIsTheLeastActiveWarriors : Obligations.TheTurnIsTheLeastActiveWarriors := by
  intro s w pc rest
  have hidle (i : Nat) : isActive s i = false ↔ queueOf s i = [] := by
    rw [← Bool.not_eq_true, isActive_iff, not_not]
  rw [frontProcess_eq_some, nextActive_eq_some]
  constructor
  · rintro ⟨⟨hle, hact, hleast⟩, hq⟩
    exact ⟨hle, lt_of_queueOf_ne_nil (isActive_iff.1 hact), hq, fun i h1 h2 => (hidle i).1 (hleast i h1 h2)⟩
  · rintro ⟨hle, -, hq, hleast⟩
    exact ⟨⟨hle, isActive_iff.2 (by simp [hq]), fun i h1 h2 => (hidle i).2 (hleast i h1 h2)⟩, hq⟩

/-- Settles O40: a valid cell's packed word decodes to the cell's own instruction, and that is what the step runs. -/
theorem stepRunsTheFetchedInstruction : Obligations.StepRunsTheFetchedInstruction := by
  intro s w pc rest i hr hf hdecode hcheck
  obtain ⟨r, hrecord, rfl⟩ := decode_eq_ok.1 hdecode
  obtain rfl : readCell s pc = r := by simpa using (decodeRecord_encodeRecord hcheck).symm.trans hrecord
  exact ⟨rfl, exists_step hr hf hcheck⟩

/-- Settles O41: the word laid is in the cell that the next turn fetches, and the turn is of the same process. -/
theorem stepRunsTheLaidWord : Obligations.StepRunsTheLaidWord := by
  intro s nbits word w pc rest i hr hm hf hdecode t
  obtain ⟨r, hrecord, rfl⟩ := decode_eq_ok.1 hdecode
  obtain ⟨-, hcheck⟩ := decodeRecord_eq_ok.1 hrecord
  have ht : t = writeCell s pc r := by simp only [t, State.withFetchWord, layWord, hf, hrecord]
  have hcell : readCell t pc = r := by rw [ht]; exact memRead_memWrite_same hm rfl r
  have hft : frontProcess t = some (w, pc, rest) := by
    rw [ht, frontProcess_congr (writeCell_warriors s pc r) (writeCell_turnPtr s pc r), hf]
  refine ⟨fun x hx => by rw [ht]; exact memRead_memWrite_other s.core hx r, ?_⟩
  have hcheck' : (readCell t pc).check t.cfg.coreSize = none := by rw [hcell, ht]; exact hcheck
  obtain ⟨s', hexec, hstep⟩ := exists_step (by rw [ht]; exact hr) hft hcheck'
  rw [hcell] at hexec
  exact ⟨s', hexec, hstep⟩

/-- A state that a step leaves as it is stays through any run. -/
theorem run_of_step_fixed {M : Host.Core} {s : M.State} (h : M.step s = .next s) (k : Nat) : M.run k s = .next s := by
  induction k with
  | zero => rfl
  | succ k ih => rw [Host.Core.run, h]; exact ih

/-- Settles O42: a step leaves an Ended match as it is. -/
theorem anEndedMatchStaysAsItIs : Obligations.AnEndedMatchStaysAsItIs := by
  intro s o k h
  exact run_of_step_fixed (M := Sys2Proof.core) (step_of_ended h) k

/-- Settles O43: the pass begins before the instruction, which keeps the counter. -/
theorem thePassCounterRisesAtThePassStart : Obligations.ThePassCounterRisesAtThePassStart := by
  intro s s' hr h
  obtain ⟨w, pc, rest, s₁, hf, hexec, rfl⟩ := step_running hr h
  obtain ⟨hcfg, hn0, hcycle, hothers⟩ := step_frame hf hexec
  exact ⟨hcycle, hcfg, hn0, hothers.ids⟩

/-- Settles O44: the cursor's test reads the queues that the step leaves. -/
theorem theCursorFollowsTheRotation : Obligations.TheCursorFollowsTheRotation := by
  intro s s' w pc rest hr hf h
  obtain ⟨s₁, -, rfl⟩ := step_running_front hr hf h
  simp only [queueOf_finishTurn, finishTurn_turnPtr]
  refine ⟨fun ⟨i, hi, hq⟩ => ?_, fun hall => ?_⟩
  · rw [if_pos (laterActive_iff.2 ⟨i, hi, isActive_iff.2 hq⟩)]
  · rw [laterActive_eq_false_iff.2 hall]
    rfl

/-- Settles O45: the status is what the end test gives the state that the step leaves. -/
theorem theMatchEndsExactlyAtTheEndCondition : Obligations.TheMatchEndsExactlyAtTheEndCondition := by
  intro s s' hr h few spent
  obtain ⟨w, pc, rest, s₁, -, -, rfl⟩ := step_running hr h
  rw [finishTurn_status]
  have hend : endCondition (finishTurn s₁ w) = true ↔ few ∨ spent := endCondition_iff
  have hended (h : few ∨ spent) := statusOf_of_endCondition (hend.2 h)
  refine ⟨by rw [statusOf_eq_running, hend, not_or], fun id hn hid => ?_, fun hn hids => ?_, fun hfew hspent => ?_⟩
  · have hfew : few := by simp [few, activeCount, hid, hn]
    rw [hended (.inl hfew), outcome_win hn hid]
  · have hfew : few := by simp [few, activeCount, hids]
    rw [hended (.inl hfew), outcome_lone (by omega) hfew]
  · rw [hended (.inr hspent), outcome_limit hfew]

/-- Settles O47: the outcome recorded is the one that the turn ended with, its counters reduced as the requeue does. -/
theorem theTurnEventIsWhatTheStepDoes : Obligations.TheTurnEventIsWhatTheStepDoes := by
  intro s s' w pc rest hr hf h
  obtain ⟨s₁, hexec, rfl⟩ := step_running_front hr hf h
  have hf' : frontProcess (beginPass s) = some (w, pc, rest) := by rw [frontProcess_beginPass, hf]
  obtain ⟨-, -, hcycle, -⟩ := step_frame hf hexec
  rw [← beginPass_cycleCount] at hcycle
  obtain ⟨-, w', pc', rest', u, out, hf'', hunit, hu, rfl⟩ := exec_inversion hexec
  obtain ⟨rfl, rfl, rfl⟩ := frontProcess_unique hf' hf''
  rw [record_instr] at hunit hu
  obtain ⟨hbook, hqueue, hlen⟩ := hu.frame
  have hw : w < u.warriors.length := by
    rw [hlen]; simpa [opened] using frontProcess_lt hf
  have hrest : queueOf u w = rest := by
    rw [hqueue]; exact queueOf_setQueue_same (frontProcess_lt hf') rest
  have hC : u.cfg.coreSize = s.cfg.coreSize := by rw [hbook.cfg, opened_cfg, beginPass_cfg]
  refine ⟨out.reduced s.cfg.coreSize, ?_, ?_⟩
  · rw [turnEvent_eq hr hf, hunit, hcycle]
  · rw [queueOf_finishTurn, endTurn_eq hw, queueOf_setQueue_same hw, hrest, hC]
    cases out <;> simp [requeued, TurnOut.reduced]

/-- Settles O48: the event's outcome is the execute phase's, of which every opcode's is known. -/
theorem onlyDatDivAndModKill : Obligations.OnlyDatDivAndModKill := by
  intro s e h
  obtain ⟨hr, w, pc, rest, hf⟩ := turnEvent_inversion h
  obtain rfl := Option.some.inj ((turnEvent_eq hr hf).symm.trans h)
  have ho : operandsOf (beginPass s) pc (readCell s pc) = operandsOf s pc (readCell s pc) := by
    rw [operandsOf, beginPass_cfg, beginPass_core]
  simp only [reduced_eq_death, executeUnit_death, Kills, turnAt, ho]
  simp

end Sys2Proof.Proofs.Scheduler
end

section
/-! The invariant of a legal match: every step keeps it, and what it says of a running and of an ended match
(10_state R23 to R33, 60_exceptions R245, R258, R264). -/

namespace Sys2Proof.Proofs.Legal

open Sys2Proof Sys2Proof.Machine Sys2Proof.Proofs.Turn Sys2Proof.Proofs.Frame Sys2Proof.Proofs.Elimination
  Sys2Proof.Proofs.Scheduler

/-! ## Counting the Active warriors -/

theorem isActive_iff_getElem? {s : State} {i : Nat} :
    isActive s i = true ↔ ∃ x, s.warriors[i]? = some x ∧ x.queue ≠ [] := by
  rw [isActive_iff, queueOf_eq]
  cases s.warriors[i]? <;> simp

theorem activeCount_eq (s : State) : activeCount s = (s.warriors.filter fun x => !x.queue.isEmpty).length :=
  List.length_map _

/-- The count is positive exactly when some warrior is Active. -/
theorem one_le_activeCount_iff {s : State} : 1 ≤ activeCount s ↔ ∃ i, isActive s i = true := by
  rw [activeCount_eq, Nat.one_le_iff_ne_zero, ne_eq, List.length_eq_zero_iff, List.filter_eq_nil_iff]
  simp only [isActive_iff_getElem?, Bool.not_eq_true', List.isEmpty_eq_false_iff, not_forall, not_not]
  constructor
  · rintro ⟨x, hx, hq⟩
    obtain ⟨i, hi⟩ := List.getElem?_of_mem hx
    exact ⟨i, x, hi, hq⟩
  · rintro ⟨i, x, hi, hq⟩
    exact ⟨x, List.mem_of_getElem? hi, hq⟩

/-- Of two elements with a property, one stands at another place than a given one. -/
theorem exists_ne_of_two_le_filter {α : Type} {p : α → Bool} {l : List α} (h : 2 ≤ (l.filter p).length) (w : Nat) :
    ∃ v x, v ≠ w ∧ l[v]? = some x ∧ p x = true := by
  induction l generalizing w with
  | nil => simp at h
  | cons a l ih =>
    cases w with
    | zero =>
      have hpos : 0 < (l.filter p).length := by
        rw [List.filter_cons] at h
        split at h
        · simp only [List.length_cons] at h; omega
        · omega
      obtain ⟨x, hx⟩ := List.exists_mem_of_length_pos hpos
      obtain ⟨hx, hp⟩ := List.mem_filter.1 hx
      obtain ⟨v, hv⟩ := List.getElem?_of_mem hx
      exact ⟨v + 1, x, by omega, by simpa using hv, hp⟩
    | succ w =>
      by_cases hp : p a = true
      · exact ⟨0, a, by omega, rfl, hp⟩
      · rw [List.filter_cons_of_neg hp] at h
        obtain ⟨v, x, hv, hx, hpx⟩ := ih h w
        exact ⟨v + 1, x, by omega, by simpa using hx, hpx⟩

/-- With two Active warriors, one is another than `w`. -/
theorem exists_active_ne {s : State} (h : 2 ≤ activeCount s) (w : Nat) : ∃ v, v ≠ w ∧ isActive s v = true := by
  rw [activeCount_eq] at h
  obtain ⟨v, x, hv, hx, hq⟩ := exists_ne_of_two_le_filter h w
  exact ⟨v, hv, isActive_iff_getElem?.2 ⟨x, hx, by simpa using hq⟩⟩

/-! ## Queues and p-spaces of a legal match -/

/-- A legal queue: core addresses, at most MAXP of them (10_state R21, R23). -/
def QueueOk (cfg : Cfg) (q : List Nat) : Prop := (∀ p ∈ q, p < cfg.coreSize) ∧ q.length ≤ cfg.maxProcesses

/-- A legal p-space: canonical, indices below P and values in `[0, C)` (10_state R27, R28). -/
def PSpaceOk (cfg : Cfg) (ps : Sparse Nat) : Prop :=
  sparseWf pspaceFill ps = true ∧ ∀ e ∈ ps, e.1 < cfg.pspaceSize ∧ e.2 < cfg.coreSize

/-- Every warrior is legal exactly when every queue and every p-space is; a number that is no warrior's has none. -/
theorem warriorsOk_iff {cfg : Cfg} {s : State} :
    (∀ x ∈ s.warriors, WarriorOk cfg x) ↔ ∀ v, QueueOk cfg (queueOf s v) ∧ PSpaceOk cfg (pspaceOf s v) := by
  constructor
  · intro h v
    rw [queueOf_eq, pspaceOf_eq]
    cases hv : s.warriors[v]? with
    | none => exact ⟨⟨by simp, by simp⟩, sparseWf_nil, by simp⟩
    | some x =>
      obtain ⟨hq, hlen, hwf, hps⟩ := h x (List.mem_of_getElem? hv)
      exact ⟨⟨hq, hlen⟩, hwf, hps⟩
  · intro h x hx
    obtain ⟨v, hv⟩ := List.getElem?_of_mem hx
    have := h v
    rw [queueOf_eq, pspaceOf_eq, hv] at this
    obtain ⟨⟨hq, hlen⟩, hwf, hps⟩ := this
    exact ⟨hq, hlen, hwf, hps⟩

/-- A write of a canonical value keeps a p-space legal. -/
theorem PSpaceOk.write {cfg : Cfg} (hP : 0 < cfg.pspaceSize) {ps : Sparse Nat} (h : PSpaceOk cfg ps) (i : Nat) {v : Nat}
    (hv : v < cfg.coreSize) : PSpaceOk cfg (sparseWrite pspaceFill ps (i % cfg.pspaceSize) v) := by
  refine ⟨sparseWrite_wf h.1 _ v, fun e he => ?_⟩
  rcases mem_sparseWrite he with ⟨rfl, -⟩ | he
  · exact ⟨Nat.mod_lt i hP, hv⟩
  · exact h.2 e he

/-- A p-space write leaves any warrior's p-space as it was, or it is the one written. -/
theorem pspaceOf_pWrite_cases (s : State) (w i v u : Nat) :
    pspaceOf (pWrite s w i v) u = pspaceOf s u ∨
      pspaceOf (pWrite s w i v) u = sparseWrite pspaceFill (pspaceOf s w) (i % s.cfg.pspaceSize) v := by
  rcases eq_or_ne u w with rfl | hu
  · rcases Nat.lt_or_ge u s.warriors.length with hlt | hge
    · exact .inr (Instructions.pspaceOf_pWrite_same hlt i v)
    · refine .inl ?_
      rw [pspaceOf_eq, pspaceOf_eq, List.getElem?_eq_none (by simpa [pWrite] using hge), List.getElem?_eq_none hge]
  · exact .inl (by simp [pspaceOf_eq, pWrite, hu.symm])

/-- An execute phase keeps every p-space legal: STP stores a field value, which is canonical. -/
theorem pspaceOk_of_unitWrites {t : Turn} {s s' : State} (h : UnitWrites t s s') (hP : 0 < s.cfg.pspaceSize)
    (hs : t.o.src.check s.cfg.coreSize = none) (hps : ∀ v, PSpaceOk s.cfg (pspaceOf s v)) (v : Nat) :
    PSpaceOk s.cfg (pspaceOf s' v) := by
  cases h with
  | none => exact hps v
  | values l _ => rw [pspaceOf_congr (writeValues_warriors s _ l)]; exact hps v
  | record _ => exact hps v
  | pspace f _ =>
    rcases pspaceOf_pWrite_cases s t.w (pspaceIndex t.ir t.o) (valueOf t.o.src f) v with h | h
    · rw [h]; exact hps v
    · rw [h]; exact (hps t.w).write hP _ (valueOf_lt hs f)

/-! ## The outcome and the process limit -/

theorem arithUnit_ne_split (law : Nat → Nat → Nat → Option Nat) (t : Turn) (s : State) (p q : Nat) :
    (arithUnit law t s).2 ≠ .split p q := by
  simp only [arithUnit]
  split <;> simp [advance]

theorem skipIf_ne_split (t : Turn) (taken : Bool) (p q : Nat) : skipIf t taken ≠ .split p q := by
  cases taken <;> simp [skipIf, advance]

theorem jumpIf_ne_split (t : Turn) (taken : Bool) (p q : Nat) : jumpIf t taken ≠ .split p q := by
  cases taken <;> simp [jumpIf, advance]

/-- Only SPL splits, and only below the limit, the executing process counted (43_control R175, R176). -/
theorem cnt_lt_of_split {op : Opcode} {t : Turn} {s : State} {p q : Nat} (h : (executeUnit op t s).2 = .split p q) :
    t.cnt < s.cfg.maxProcesses := by
  cases op
  case spl =>
    by_contra hlt
    simp [executeUnit, splUnit, hlt, advance] at h
  case mov =>
    have hmov : (movUnit t s).2 = advance t := by unfold movUnit; split <;> rfl
    simp [executeUnit, hmov, advance] at h
  case add | sub | mul | div | mod => exact absurd h (arithUnit_ne_split _ t s p q)
  case cmp | sne | slt => exact absurd h (skipIf_ne_split t _ p q)
  case jmz | jmn | djn => exact absurd h (jumpIf_ne_split t _ p q)
  all_goals cases h

/-- The queue that a turn leaves is legal where the queue before it was. -/
theorem queueOk_requeued {cfg : Cfg} (hC : 0 < cfg.coreSize) {pc : Nat} {rest : List Nat} (h : QueueOk cfg (pc :: rest))
    {out : TurnOut} (hsplit : ∀ p q, out = .split p q → rest.length + 1 < cfg.maxProcesses) :
    QueueOk cfg (rest ++ requeued cfg.coreSize out) := by
  obtain ⟨hmem, hlen⟩ := h
  have hnew : ∀ p ∈ requeued cfg.coreSize out, p < cfg.coreSize := by
    cases out <;> simp [requeued, Nat.mod_lt _ hC]
  have hcount : rest.length + (requeued cfg.coreSize out).length ≤ cfg.maxProcesses := by
    simp only [List.length_cons] at hlen
    cases out with
    | next p => simpa [requeued] using hlen
    | split p q => exact hsplit p q rfl
    | death c => simp only [requeued, List.length_nil]; omega
  refine ⟨fun p hp => ?_, by rwa [List.length_append]⟩
  rcases List.mem_append.1 hp with hp | hp
  · exact hmem p (List.mem_cons_of_mem _ hp)
  · exact hnew p hp

/-! ## One turn -/

/-- A turn of any instruction keeps the core, every queue and every p-space legal. -/
theorem exec_keeps_legal {i : Instr} {s s' : State} (hcfg : CfgLegal s.cfg) (hcore : CoreOk s.cfg.coreSize s.core)
    (hws : ∀ v, QueueOk s.cfg (queueOf s v) ∧ PSpaceOk s.cfg (pspaceOf s v)) (h : exec i s = .next s') :
    CoreOk s.cfg.coreSize s'.core ∧ ∀ v, QueueOk s.cfg (queueOf s' v) ∧ PSpaceOk s.cfg (pspaceOf s' v) := by
  obtain ⟨hC, -, -, -, -, -, hP⟩ := hcfg
  obtain ⟨hi, w, pc, rest, u, out, hf, hunit, hu, rfl⟩ := exec_inversion h
  have hsrc := prepare_src_check hC hcore pc hi
  have hdst := prepare_dst_check hC hcore pc hi
  obtain ⟨hbook, hqueue, hlen⟩ := hu.frame
  have hcfgu : u.cfg = s.cfg := hbook.cfg
  have hw : w < u.warriors.length := by rw [hlen]; simpa [opened] using frontProcess_lt hf
  have hrest : queueOf u w = rest := by rw [hqueue]; exact queueOf_setQueue_same (frontProcess_lt hf) rest
  refine ⟨?_, fun v => ⟨?_, ?_⟩⟩
  · rw [endTurn_core]
    exact hu.coreOk hC (prepare_coreOk hC hcore pc _) hsrc hdst
  · rcases eq_or_ne v w with rfl | hv
    · rw [endTurn_eq hw, queueOf_setQueue_same hw, hrest, hcfgu]
      refine queueOk_requeued (pc := pc) hC ?_ fun p q hout => ?_
      · rw [← (frontProcess_eq_some.1 hf).2]
        exact (hws v).1
      · exact cnt_lt_of_split (show _ = TurnOut.split p q by rw [hunit, hout])
    · rw [queueOf_endTurn_other _ hv, hqueue]
      exact (queueOf_setQueue_other s hv rest).symm ▸ (hws v).1
  · rw [endTurn_eq hw, pspaceOf_setQueue]
    refine pspaceOk_of_unitWrites hu hP hsrc (fun v => ?_) v
    rw [pspaceOf_opened]
    exact (hws v).2

/-! ## What the invariant says of a Running match -/

/-- A Running match is not at its end: more Active warriors than the threshold, and a pass left to begin. -/
theorem inv_running {s : State} (hinv : Inv s) (hr : s.status = .running) :
    (if 2 ≤ s.n0 then 1 else 0) < activeCount s ∧ (s.turnPtr = 0 → s.cycleCount < s.cfg.maxCycles) := by
  have h := statusOf_eq_running.1 (hinv.status_eq.symm.trans hr)
  rw [endCondition_iff, not_or, not_and_or] at h
  exact ⟨by omega, fun h0 => by omega⟩

/-- Some warrior is to move. -/
theorem exists_frontProcess {s : State} (hinv : Inv s) (hr : s.status = .running) :
    ∃ w pc rest, frontProcess s = some (w, pc, rest) := by
  have hlive : ∃ i, s.turnPtr ≤ i ∧ isActive s i = true := by
    rcases hinv.cursor_live with h0 | h
    · obtain ⟨hcount, -⟩ := inv_running hinv hr
      obtain ⟨i, hi⟩ := one_le_activeCount_iff.1 (Nat.lt_of_le_of_lt (Nat.zero_le _) hcount)
      exact ⟨i, by omega, hi⟩
    · exact h
  obtain ⟨i, hle, hi⟩ := hlive
  cases hf : frontProcess s with
  | some p => exact ⟨p.1, p.2.1, p.2.2, rfl⟩
  | none =>
    rw [nextActive_eq_none.1 (frontProcess_eq_none.1 hf) i hle] at hi
    cases hi

/-- The cell that the front process fetches is valid, so that the step answers. -/
theorem exists_step_of_inv {s : State} (hinv : Inv s) : ∃ s', step s = .next s' := by
  cases hr : s.status with
  | ended o => exact ⟨s, step_of_ended hr⟩
  | running =>
    obtain ⟨w, pc, rest, hf⟩ := exists_frontProcess hinv hr
    obtain ⟨s₁, -, hstep⟩ := exists_step hr hf (memRead_check hinv.cfg_legal.1 hinv.core_ok pc)
    exact ⟨_, hstep⟩

/-- The outcome of a legal match: a Win of the one survivor of two or more, a Draw of none after a lone warrior's
death, or a Draw of all who are left (60_exceptions R264). -/
theorem outcome_cases {s : State} (hinv : Inv s) :
    (∃ id, 2 ≤ s.n0 ∧ activeIds s = [id] ∧ outcome s = .win id) ∨
      (s.n0 = 1 ∧ activeIds s = [] ∧ outcome s = .draw []) ∨
      (activeIds s ≠ [] ∧ outcome s = .draw (activeIds s)) := by
  by_cases hfew : activeCount s ≤ endThreshold s
  · have hcount := hfew
    unfold endThreshold at hcount
    split at hcount
    · next hn =>
      obtain ⟨id, hid⟩ := List.length_eq_one_iff.1 (Nat.le_antisymm hcount (hinv.survivor hn))
      exact .inl ⟨id, hn, hid, outcome_win hn hid⟩
    · next hn =>
      have hpos : 1 ≤ s.n0 := by have := hinv.cursor_lt; rw [hinv.n0_eq]; omega
      exact .inr (.inl ⟨by omega, List.length_eq_zero_iff.1 (Nat.le_zero.1 hcount), outcome_lone hn hfew⟩)
  · refine .inr (.inr ⟨fun hnil => hfew ?_, outcome_limit hfew⟩)
    rw [activeCount, hnil]
    exact Nat.zero_le _

/-! ## Every step keeps the invariant -/

/-- The cursor after a turn names a place in the rotation from which some warrior is Active, or its beginning. -/
theorem finishTurn_cursor {s : State} {w : Nat} (hw : w < s.warriors.length) :
    (finishTurn s w).turnPtr < s.warriors.length ∧
      ((finishTurn s w).turnPtr = 0 ∨ ∃ i, (finishTurn s w).turnPtr ≤ i ∧ isActive (finishTurn s w) i = true) := by
  rw [finishTurn_turnPtr]
  split
  · next hl =>
    obtain ⟨i, hi, ha⟩ := laterActive_iff.1 hl
    have := lt_of_queueOf_ne_nil (isActive_iff.1 ha)
    exact ⟨by omega, .inr ⟨i, by omega, ha⟩⟩
  · exact ⟨by omega, .inl rfl⟩

/-- A turn of a legal Running match leaves a legal match. -/
theorem finishTurn_inv {s s₁ : State} {w pc : Nat} {rest : List Nat} (hinv : Inv s) (hr : s.status = .running)
    (hf : frontProcess s = some (w, pc, rest)) (h : exec (readCell s pc).instr (beginPass s) = .next s₁) :
    Inv (finishTurn s₁ w) := by
  obtain ⟨hcfg, hn0, hcycle, hothers⟩ := step_frame hf h
  obtain ⟨hcount, hpass⟩ := inv_running hinv hr
  have hlen : (finishTurn s₁ w).warriors.length = s.warriors.length := hothers.length_eq
  obtain ⟨hcursor, hlive⟩ := finishTurn_cursor (s := s₁) (w := w) (hlen ▸ frontProcess_lt hf)
  have hws := warriorsOk_iff.1 hinv.warriors_ok
  obtain ⟨hcore, hws'⟩ := exec_keeps_legal (s := beginPass s) (by rw [beginPass_cfg]; exact hinv.cfg_legal)
    (by rw [beginPass_cfg, beginPass_core]; exact hinv.core_ok)
    (fun v => by rw [beginPass_cfg, queueOf_beginPass, pspaceOf_congr (beginPass_warriors s)]; exact hws v) h
  rw [beginPass_cfg] at hcore
  simp only [beginPass_cfg] at hws'
  exact {
    cfg_legal := by rw [hcfg]; exact hinv.cfg_legal
    core_ok := by rw [hcfg]; exact hcore
    warriors_ok := by rw [hcfg]; exact warriorsOk_iff.2 hws'
    n0_eq := by rw [hn0, hinv.n0_eq]; exact hlen.symm
    ids_distinct := by rw [hothers.ids]; exact hinv.ids_distinct
    cursor_lt := hcursor
    cursor_live := hlive
    cycle_le := by
      rw [hcycle, hcfg]
      split
      · next h0 => exact hpass h0
      · exact hinv.cycle_le
    survivor := fun h2 => by
      rw [hn0] at h2
      rw [if_pos h2] at hcount
      obtain ⟨v, hv, ha⟩ := exists_active_ne hcount w
      exact one_le_activeCount_iff.2 ⟨v, by rw [hothers.isActive_eq hv, ha]⟩
    status_eq := finishTurn_status s₁ w }

/-! ## A legal match that begins -/

/-- A state in which every warrior has its processes and nothing has run is legal after the end test. -/
theorem inv_evaluateEnd {s : State} (hcfg : CfgLegal s.cfg) (hcore : CoreOk s.cfg.coreSize s.core)
    (hws : ∀ x ∈ s.warriors, WarriorOk s.cfg x ∧ x.queue ≠ []) (hn0 : s.n0 = s.warriors.length)
    (hids : (s.warriors.map (·.id)).Nodup) (hlen : 0 < s.warriors.length) (hptr : s.turnPtr = 0)
    (hcycle : s.cycleCount = 0) : Inv (evaluateEnd s) where
  cfg_legal := hcfg
  core_ok := hcore
  warriors_ok := fun x hx => (hws x hx).1
  n0_eq := hn0
  ids_distinct := hids
  cursor_lt := by rw [evaluateEnd_turnPtr, hptr]; exact hlen
  cursor_live := .inl hptr
  cycle_le := by rw [evaluateEnd_cycleCount, hcycle]; exact Nat.zero_le _
  survivor := fun _ => one_le_activeCount_iff.2 ⟨0, isActive_iff_getElem?.2
    ⟨s.warriors[0], List.getElem?_eq_getElem hlen, (hws _ (List.getElem_mem hlen)).2⟩⟩
  status_eq := evaluateEnd_status s

/-! ## The obligations -/

/-- Settles O49: the reset state is one warrior with one process, after the end test. -/
theorem resetIsALegalMatch : Obligations.ResetIsALegalMatch := by
  have hend : State.reset = evaluateEnd State.reset := by decide
  unfold Obligations.ResetIsALegalMatch
  rw [hend]
  refine inv_evaluateEnd (by decide) ⟨rfl, ?_⟩ ?_ rfl (by decide) (by decide) rfl rfl
  · simp [State.reset]
  · simp [State.reset, WarriorOk, Config.resetCfg, sparseWf_nil]

/-- Settles O50: an Ended match stays, and a Running one takes a turn. -/
theorem everyStepKeepsTheMatchLegal : Obligations.EveryStepKeepsTheMatchLegal := by
  intro s s' hinv h
  obtain ⟨o, -, rfl⟩ | ⟨hr, w, pc, rest, s₁, hf, hexec, rfl⟩ := step_next h
  · exact hinv
  · exact finishTurn_inv hinv hr hf hexec

/-- Settles O51: a warrior is to move, and the cell it fetches is valid. -/
theorem aLegalMatchNeverStops : Obligations.ALegalMatchNeverStops := by
  intro s hinv
  exact ⟨exists_step_of_inv hinv, exists_frontProcess hinv⟩

/-- Settles O52: each of the three outcomes names the survivors. -/
theorem theOutcomeNamesTheSurvivors : Obligations.TheOutcomeNamesTheSurvivors := by
  intro s hinv
  have hended {o : MatchOutcome} (h : s.status = .ended o) : outcome s = o := by
    have hstatus := hinv.status_eq.symm.trans h
    unfold statusOf at hstatus
    split at hstatus
    · simpa using hstatus
    · cases hstatus
  rcases outcome_cases hinv with ⟨id, hn, hid, hwin⟩ | ⟨hn, hnil, hdraw⟩ | ⟨hne, hdraw⟩
  · refine ⟨fun id' h => ?_, fun ids h => by cases hwin.symm.trans (hended h)⟩
    obtain rfl : id = id' := by simpa using hwin.symm.trans (hended h)
    exact ⟨hn, hid⟩
  · refine ⟨fun id h => (by cases hdraw.symm.trans (hended h)), fun ids h => ?_⟩
    obtain rfl : [] = ids := by simpa using hdraw.symm.trans (hended h)
    exact ⟨hnil.symm, fun _ => hn⟩
  · refine ⟨fun id h => (by cases hdraw.symm.trans (hended h)), fun ids h => ?_⟩
    obtain rfl : activeIds s = ids := by simpa using hdraw.symm.trans (hended h)
    exact ⟨rfl, fun hnil => absurd hnil hne⟩

end Sys2Proof.Proofs.Legal
end

section
/-! Placement round the ring: programs that obey the rule meet nowhere, so that they fit, and the packed placement
obeys it (70_reset R305, R311). -/

namespace Sys2Proof.Proofs.Placement

open Sys2Proof Sys2Proof.Machine

/-- `max(len, MINSEP)` of an image, the cells that it keeps for itself. -/
def kept (minSep : Int) (im : ProgramImage) : Int := max (im.instructions.length : Int) minSep

theorem kept_nonneg (minSep : Int) (im : ProgramImage) : 0 ≤ kept minSep im :=
  le_trans (Int.natCast_nonneg _) (le_max_left _ _)

theorem length_le_kept (minSep : Int) (im : ProgramImage) : (im.instructions.length : Int) ≤ kept minSep im :=
  le_max_left _ _

/-! ## The cells of placed programs -/

section Cells

variable {C : Nat} {minSep : Int} {images : List ProgramImage} {places : List Nat} {i j si sj : Nat}
  {im im' : ProgramImage}

/-- Going on from one start by no more than the other's distance leads to no common cell. -/
theorem cells_ne_of_le (h : PlacementRule C minSep images places) (hij : i ≠ j) (hj : images[j]? = some im')
    (hsi : places[i]? = some si) (hsj : places[j]? = some sj) {k l : Nat} (hkl : k ≤ l)
    (hl : (l : Int) < kept minSep im') : (si + k) % C ≠ (sj + l) % C := by
  intro heq
  have hsep : kept minSep im' ≤ ((si : Int) - sj) % C := h.2.2 j i sj si im' hij.symm hj hsj hsi
  have hmod : ((si : Int) - sj) % C = ((l - k : Nat) : Int) % C := by
    refine Int.emod_eq_emod_iff_emod_sub_eq_zero.2 ?_
    have : ((si + k : Nat) : Int) % C = ((sj + l : Nat) : Int) % C := by exact_mod_cast heq
    rw [Int.emod_eq_emod_iff_emod_sub_eq_zero] at this
    rw [← this]
    congr 1
    omega
  have hle : ((l - k : Nat) : Int) % C ≤ (l - k : Nat) := by exact_mod_cast Nat.mod_le (l - k) C
  omega

/-- Two placed programs, with the cells they keep, meet nowhere. -/
theorem cells_ne (h : PlacementRule C minSep images places) (hij : i ≠ j) (hi : images[i]? = some im)
    (hj : images[j]? = some im') (hsi : places[i]? = some si) (hsj : places[j]? = some sj) {k l : Nat}
    (hk : (k : Int) < kept minSep im) (hl : (l : Int) < kept minSep im') : (si + k) % C ≠ (sj + l) % C := by
  rcases Nat.le_total k l with hkl | hkl
  · exact cells_ne_of_le h hij hj hsi hsj hkl hl
  · exact (cells_ne_of_le h hij.symm hi hsj hsi hkl hk).symm

/-- Beside another program a program keeps no more than the core. -/
theorem kept_le (h : PlacementRule C minSep images places) (hij : i ≠ j) (hi : images[i]? = some im)
    (hsi : places[i]? = some si) (hsj : places[j]? = some sj) : kept minSep im ≤ C := by
  have hC : (0 : Int) < C := lt_of_le_of_lt (Int.natCast_nonneg si) (h.2.1 si (List.mem_of_getElem? hsi))
  exact le_trans (h.2.2 i j si sj im hij hi hsi hsj) (Int.emod_lt_of_pos _ hC).le

end Cells

/-- Fewer cells than the core from one start on are all different. -/
theorem add_mod_injective {C s k l : Nat} (hk : k < C) (hl : l < C) (h : (s + k) % C = (s + l) % C) : k = l := by
  have := Nat.ModEq.add_left_cancel' s (show s + k ≡ s + l [MOD C] from h)
  rwa [Nat.ModEq, Nat.mod_eq_of_lt hk, Nat.mod_eq_of_lt hl] at this

/-- Programs that meet nowhere round a ring of `C` cells have at most `C` cells together. -/
theorem sum_le_of_cells_ne {n C : Nat} (start len : Fin n → Nat) (hlen : ∀ i, len i ≤ C)
    (hne : ∀ i j, i ≠ j → ∀ k < len i, ∀ l < len j, (start i + k) % C ≠ (start j + l) % C) : ∑ i, len i ≤ C := by
  have hmaps : Set.MapsTo (fun x : (_ : Fin n) × Nat => (start x.1 + x.2) % C)
      (Finset.univ.sigma fun i => Finset.range (len i)) (Finset.range C) := by
    rintro ⟨i, k⟩ hx
    have hk : k < len i := Finset.mem_range.1 (Finset.mem_sigma.1 hx).2
    exact Finset.mem_coe.2 (Finset.mem_range.2 (Nat.mod_lt _ (lt_of_lt_of_le (by omega) (hlen i))))
  have hinj : Set.InjOn (fun x : (_ : Fin n) × Nat => (start x.1 + x.2) % C)
      (Finset.univ.sigma fun i => Finset.range (len i)) := by
    rintro ⟨i, k⟩ hx ⟨j, l⟩ hy heq
    have hk : k < len i := Finset.mem_range.1 (Finset.mem_sigma.1 hx).2
    have hl : l < len j := Finset.mem_range.1 (Finset.mem_sigma.1 hy).2
    rcases eq_or_ne i j with rfl | hij
    · rw [add_mod_injective (lt_of_lt_of_le hk (hlen i)) (lt_of_lt_of_le hl (hlen i)) heq]
    · exact absurd heq (hne i j hij k hk l hl)
  simpa using Finset.card_le_card_of_injOn _ hmaps hinj

/-! ## The packed placement -/

theorem length_placeFrom (minSep : Int) (s : Nat) (lens : List Nat) :
    (placeFrom minSep s lens).length = lens.length := by
  induction lens generalizing s with
  | nil => rfl
  | cons len lens ih => rw [placeFrom, List.length_cons, ih, List.length_cons]

/-- Each start is the first one plus the separations before it. -/
theorem placeFrom_getElem? {minSep : Int} {s k p : Nat} {lens : List Nat} (h : (placeFrom minSep s lens)[k]? = some p) :
    (p : Int) = s + ((lens.take k).map (separation minSep)).sum := by
  induction lens generalizing s k with
  | nil => simp [placeFrom] at h
  | cons len lens ih =>
    cases k with
    | zero =>
      obtain rfl : s = p := by simpa [placeFrom] using h
      simp
    | succ k =>
      have hnonneg : 0 ≤ separation minSep len := le_trans (Int.natCast_nonneg len) (le_max_left _ _)
      have := ih (k := k) (by simpa [placeFrom] using h)
      rw [this, List.take_succ_cons, List.map_cons, List.sum_cons]
      push_cast
      rw [Int.toNat_of_nonneg hnonneg, add_assoc]

/-- The cells that the first `k` programs keep. -/
def keptBefore (minSep : Int) (images : List ProgramImage) (k : Nat) : Int := ((images.take k).map (kept minSep)).sum

theorem keptBefore_succ {minSep : Int} {images : List ProgramImage} {k : Nat} {im : ProgramImage}
    (h : images[k]? = some im) : keptBefore minSep images (k + 1) = keptBefore minSep images k + kept minSep im := by
  rw [keptBefore, List.take_add_one, h, List.map_append, List.sum_append]
  simp [keptBefore]

theorem keptBefore_mono (minSep : Int) (images : List ProgramImage) : Monotone (keptBefore minSep images) := by
  refine monotone_nat_of_le_succ fun k => ?_
  cases h : images[k]? with
  | none =>
    have hk := List.getElem?_eq_none_iff.1 h
    rw [keptBefore, keptBefore, List.take_of_length_le hk, List.take_of_length_le (by omega)]
  | some im =>
    rw [keptBefore_succ h]
    have := kept_nonneg minSep im
    omega

theorem keptBefore_zero (minSep : Int) (images : List ProgramImage) : keptBefore minSep images 0 = 0 := by
  simp [keptBefore]

theorem keptBefore_nonneg (minSep : Int) (images : List ProgramImage) (k : Nat) : 0 ≤ keptBefore minSep images k :=
  keptBefore_zero minSep images ▸ keptBefore_mono minSep images (Nat.zero_le k)

theorem keptBefore_length (minSep : Int) (images : List ProgramImage) :
    keptBefore minSep images images.length = (images.map (kept minSep)).sum := by
  rw [keptBefore, List.take_length]

/-- A program of a packed placement starts behind the cells that those before it keep. -/
theorem placePacked_getElem? {minSep : Int} {images : List ProgramImage} {k p : Nat}
    (h : (placePacked minSep images)[k]? = some p) : (p : Int) = keptBefore minSep images k := by
  rw [placeFrom_getElem? h, keptBefore, lengths, ← List.map_take, List.map_map]
  simp only [Nat.cast_zero, zero_add]
  rfl

/-- The residue of a difference of two starts, the second behind the first. -/
theorem emod_of_neg {C d : Int} (h1 : d < 0) (h2 : -C ≤ d) : d % C = d + C := by
  rw [← Int.add_emod_right, Int.emod_eq_of_lt (by omega) (by omega)]

section Packed

variable {C minSep : Int} {images : List ProgramImage}

/-- A program that is not empty keeps a cell. -/
theorem one_le_kept (hne : ∀ im ∈ images, im.instructions ≠ []) {k : Nat} {im : ProgramImage}
    (h : images[k]? = some im) : 1 ≤ kept minSep im := by
  have h1 := List.length_pos_iff.2 (hne im (List.mem_of_getElem? h))
  have h2 := length_le_kept minSep im
  omega

/-- Of two or more programs that fit, each ends within the core. -/
theorem keptBefore_add_kept_le (hfit : ProgramsFit C minSep images) (h2 : 2 ≤ images.length) {k : Nat}
    {im : ProgramImage} (h : images[k]? = some im) : keptBefore minSep images k + kept minSep im ≤ C := by
  rw [← keptBefore_succ h]
  refine le_trans (keptBefore_mono minSep images (List.getElem?_eq_some_iff.1 h).1) ?_
  rw [keptBefore_length]
  exact hfit.2 h2

/-- The starts of two packed programs keep the first one's distance, measured round the ring. -/
theorem kept_le_emod (hfit : ProgramsFit C minSep images) (hne : ∀ im ∈ images, im.instructions ≠ []) {i j : Nat}
    {im im' : ProgramImage} (hij : i ≠ j) (hi : images[i]? = some im) (hj : images[j]? = some im') :
    kept minSep im ≤ (keptBefore minSep images j - keptBefore minSep images i) % C := by
  have h2 : 2 ≤ images.length := by
    have := (List.getElem?_eq_some_iff.1 hi).1
    have := (List.getElem?_eq_some_iff.1 hj).1
    omega
  have hi1 := one_le_kept (minSep := minSep) hne hi
  have hj1 := one_le_kept (minSep := minSep) hne hj
  have hib := keptBefore_add_kept_le hfit h2 hi
  have hjb := keptBefore_add_kept_le hfit h2 hj
  have hi0 := keptBefore_nonneg minSep images i
  have hj0 := keptBefore_nonneg minSep images j
  rcases Nat.lt_or_gt_of_ne hij with hlt | hlt
  · have := keptBefore_mono minSep images (show i + 1 ≤ j from hlt)
    rw [keptBefore_succ hi] at this
    rw [Int.emod_eq_of_lt (by omega) (by omega)]
    omega
  · have := keptBefore_mono minSep images (show j + 1 ≤ i from hlt)
    rw [keptBefore_succ hj] at this
    rw [emod_of_neg (by omega) (by omega)]
    omega

/-- Packed programs that fit obey the placement rule. -/
theorem placementRule_placePacked (hC : 0 < C) (hfit : ProgramsFit C minSep images)
    (hne : ∀ im ∈ images, im.instructions ≠ []) : PlacementRule C minSep images (placePacked minSep images) := by
  have hlen : (placePacked minSep images).length = images.length := by
    rw [placePacked, length_placeFrom, lengths, List.length_map]
  have himage {k p : Nat} (h : (placePacked minSep images)[k]? = some p) : ∃ im, images[k]? = some im :=
    ⟨images[k]'(hlen ▸ (List.getElem?_eq_some_iff.1 h).1), List.getElem?_eq_getElem _⟩
  refine ⟨hlen, fun p hp => ?_, fun i j si sj im hij hi hsi hsj => ?_⟩
  · obtain ⟨k, hk⟩ := List.getElem?_of_mem hp
    obtain ⟨im, him⟩ := himage hk
    rw [placePacked_getElem? hk]
    rcases Nat.eq_zero_or_pos k with rfl | hkpos
    · rw [keptBefore_zero]; exact hC
    · have hlt := (List.getElem?_eq_some_iff.1 him).1
      have := keptBefore_add_kept_le hfit (by omega) him
      have := one_le_kept (minSep := minSep) hne him
      omega
  · obtain ⟨im', hj⟩ := himage hsj
    rw [placePacked_getElem? hsi, placePacked_getElem? hsj]
    exact kept_le_emod hfit hne hij hi hj

end Packed

/-! ## The obligations -/

/-- Settles O58: the packed starts are the sums of what is kept before them. -/
theorem packedPlacementIsAlwaysLegal : Obligations.PackedPlacementIsAlwaysLegal := by
  intro images ci h places
  obtain ⟨-, hfit, -, hC, -, -, hne, -, -⟩ := validateConfig_eq_none.1 h
  exact ⟨placementRule_placePacked hC hfit hne, fun k p hp => placePacked_getElem? hp⟩

/-- Settles O59: the kept cells of all programs are different cells of the core, so that there are at most C. -/
theorem noPlacementExistsInATooSmallCore : Obligations.NoPlacementExistsInATooSmallCore := by
  intro C minSep images places h2 h
  have himage (i : Fin images.length) : images[i.1]? = some images[i.1] := List.getElem?_eq_getElem i.2
  have hstart (i : Fin images.length) : ∃ p, places[i.1]? = some p :=
    ⟨_, List.getElem?_eq_getElem (lt_of_lt_of_eq i.2 h.1.symm)⟩
  choose start hstart using hstart
  have hother (i : Fin images.length) : ∃ j : Fin images.length, i.1 ≠ j.1 := by
    rcases Nat.eq_zero_or_pos i.1 with h0 | h0
    · exact ⟨⟨1, h2⟩, by dsimp only; omega⟩
    · exact ⟨⟨0, by omega⟩, by dsimp only; omega⟩
  have hle (i : Fin images.length) : (kept minSep images[i.1]).toNat ≤ C := by
    obtain ⟨j, hij⟩ := hother i
    have := kept_le h hij (himage i) (hstart i) (hstart j)
    omega
  have hsum := sum_le_of_cells_ne start (fun i => (kept minSep images[i.1]).toNat) hle fun i j hij k hk l hl =>
    cells_ne h (Fin.val_ne_of_ne hij) (himage i) (himage j) (hstart i) (hstart j) (by omega) (by omega)
  calc (images.map (kept minSep)).sum
      = ∑ i : Fin images.length, kept minSep images[i.1] := (Fin.sum_univ_fun_getElem images (kept minSep)).symm
    _ = ∑ i : Fin images.length, ((kept minSep images[i.1]).toNat : Int) :=
        Finset.sum_congr rfl fun i _ => (Int.toNat_of_nonneg (kept_nonneg minSep _)).symm
    _ ≤ C := by exact_mod_cast hsum

end Sys2Proof.Proofs.Placement
end

section
/-! What setup accepts and refuses, and what a match reset and a round reset leave (70_reset R300 to R311). -/

namespace Sys2Proof.Proofs.Setup

open Sys2Proof Sys2Proof.Machine Sys2Proof.Proofs.Scheduler Sys2Proof.Proofs.Legal Sys2Proof.Proofs.Placement

/-! ## The records of an image -/

/-- Every instruction of a valid image has its record, in program order. -/
theorem forall₂_imageRecords {C : Nat} {im : ProgramImage}
    (h : ∀ i ∈ im.instructions, ∃ r, readImageInstr C i = .ok r) :
    List.Forall₂ (fun i r => readImageInstr C i = .ok r) im.instructions (imageRecords C im) := by
  unfold imageRecords
  generalize im.instructions = l at h
  induction l with
  | nil => exact .nil
  | cons i l ih =>
    obtain ⟨r, hr⟩ := h i (List.mem_cons_self ..)
    have htail := ih fun j hj => h j (List.mem_cons_of_mem i hj)
    rw [List.filterMap_cons_some (b := r) (by rw [hr]; rfl)]
    exact .cons hr htail

section Images

variable {C : Nat} {im : ProgramImage}

theorem length_imageRecords (h : ∀ i ∈ im.instructions, ∃ r, readImageInstr C i = .ok r) :
    (imageRecords C im).length = im.instructions.length := (forall₂_imageRecords h).length_eq.symm

theorem imageRecords_getElem? (h : ∀ i ∈ im.instructions, ∃ r, readImageInstr C i = .ok r) {k : Nat} {i : ImageInstr}
    (hi : im.instructions[k]? = some i) : ∃ r, (imageRecords C im)[k]? = some r ∧ readImageInstr C i = .ok r := by
  obtain ⟨hk, rfl⟩ := List.getElem?_eq_some_iff.1 hi
  have hk' : k < (imageRecords C im).length := by rwa [length_imageRecords h]
  exact ⟨_, List.getElem?_eq_getElem hk', (List.forall₂_iff_get.1 (forall₂_imageRecords h)).2 k hk hk'⟩

/-- Only valid records are loaded. -/
theorem imageRecords_check (hC : 0 < C) : ∀ r ∈ imageRecords C im, r.check C = none := by
  intro r hr
  obtain ⟨i, -, hi⟩ := List.mem_filterMap.1 hr
  cases hread : readImageInstr C i with
  | error e => simp [hread, Except.toOption] at hi
  | ok r' =>
    obtain rfl : r' = r := by simpa [hread, Except.toOption] using hi
    exact readImageInstr_check hC hread

end Images

/-- A program that fits is no longer than the core. -/
theorem length_le_of_programsFit {C : Nat} {minSep : Int} {images : List ProgramImage} (h : ProgramsFit C minSep images)
    {im : ProgramImage} (him : im ∈ images) : im.instructions.length ≤ C := by
  rcases Nat.lt_or_ge images.length 2 with hlt | hge
  · obtain ⟨im', rfl⟩ := List.length_eq_one_iff.1 (show images.length = 1 by have := List.length_pos_of_mem him; omega)
    obtain rfl := List.mem_singleton.1 him
    exact_mod_cast h.1 im rfl
  · have hnonneg : ∀ x ∈ images.map (kept minSep), 0 ≤ x := by
      intro x hx
      obtain ⟨im', -, rfl⟩ := List.mem_map.1 hx
      exact kept_nonneg minSep im'
    have h1 : kept minSep im ≤ (images.map (kept minSep)).sum := List.single_le_sum hnonneg _ (List.mem_map_of_mem him)
    have h2 : (images.map (kept minSep)).sum ≤ C := h.2 hge
    have h3 := length_le_kept minSep im
    omega

/-! ## The loads of all programs -/

theorem loadAll_coreOk {C : Nat} (hC : 0 < C) {core : CoreMem} (h : CoreOk C core) (l : List (ProgramImage × Nat)) :
    CoreOk C (loadAll C core l) := by
  induction l generalizing core with
  | nil => exact h
  | cons p l ih => exact ih (loadProgram_coreOk hC h p.2 (imageRecords_check hC))

/-- The loads change only the cells of the programs. -/
theorem memRead_loadAll_other {C : Nat} (core : CoreMem) {l : List (ProgramImage × Nat)} {x : Nat}
    (h : ∀ p ∈ l, ∀ k < (imageRecords C p.1).length, x % C ≠ (p.2 + k) % C) :
    memRead C (loadAll C core l) x = memRead C core x := by
  induction l generalizing core with
  | nil => rfl
  | cons p l ih =>
    rw [loadAll, ih _ fun q hq => h q (List.mem_cons_of_mem p hq)]
    exact memRead_loadProgram_other core p.2 _ (h p (List.mem_cons_self ..))

/-- A cell of a program that no later program meets holds that program's record. -/
theorem memRead_loadAll {C : Nat} {core : CoreMem} (hm : sparseWf coreFill core = true) {l : List (ProgramImage × Nat)}
    {w s k : Nat} {im : ProgramImage} {r : Record} (hw : l[w]? = some (im, s)) (hlen : (imageRecords C im).length ≤ C)
    (hk : (imageRecords C im)[k]? = some r)
    (hne : ∀ v, w < v → ∀ p, l[v]? = some p → ∀ j < (imageRecords C p.1).length, (s + k) % C ≠ (p.2 + j) % C) :
    memRead C (loadAll C core l) (s + k) = r := by
  induction l generalizing core w with
  | nil => simp at hw
  | cons q l ih =>
    rw [loadAll]
    cases w with
    | zero =>
      obtain rfl : q = (im, s) := by simpa using hw
      rw [memRead_loadAll_other]
      · exact memRead_loadProgram hm s _ hlen hk
      · intro p hp j hj
        obtain ⟨v, hv⟩ := List.getElem?_of_mem hp
        exact hne (v + 1) (by omega) p (by simpa using hv) j hj
    | succ w =>
      exact ih (loadProgram_wf hm q.2 _) (w := w) (by simpa using hw) fun v hv p hp =>
        hne (v + 1) (by omega) p (by simpa using hp)

/-- Both resets leave in core what 70_reset R301 and R307 say: no two programs meet, and no other cell is written. -/
theorem coreLoaded_loadAll {C : Nat} {minSep : Int} {images : List ProgramImage} {places : List Nat}
    (hvalid : ImagesValid C images) (hfit : ProgramsFit C minSep images) (hplace : PlacementRule C minSep images places)
    {s : State} (hC : s.cfg.coreSize = C) (hcore : s.core = loadAll C [] (images.zip places)) :
    CoreLoaded images places s := by
  have hread (x : Nat) : readCell s x = memRead C (loadAll C [] (images.zip places)) x := by
    rw [readCell, hC, hcore]
  have hzip {w : Nat} {q : ProgramImage × Nat} (h : (images.zip places)[w]? = some q) :
      images[w]? = some q.1 ∧ places[w]? = some q.2 := List.getElem?_zip_eq_some.1 h
  refine ⟨fun w p k im i him hp hi => ?_, fun x hx hout => ?_⟩
  · have hv := hvalid im (List.mem_of_getElem? him)
    obtain ⟨r, hr, hok⟩ := imageRecords_getElem? hv hi
    have hlen := length_imageRecords hv
    have hk := (List.getElem?_eq_some_iff.1 hi).1
    rw [hC, hok, hread]
    refine congrArg Except.ok (memRead_loadAll rfl (List.getElem?_zip_eq_some.2 ⟨him, hp⟩) ?_ hr ?_).symm
    · rw [hlen]; exact length_le_of_programsFit hfit (List.mem_of_getElem? him)
    · intro v hlt q hq j hj
      obtain ⟨hq1, hq2⟩ := hzip hq
      rw [length_imageRecords (hvalid q.1 (List.mem_of_getElem? hq1))] at hj
      have h1 := length_le_kept minSep im
      have h2 := length_le_kept minSep q.1
      exact cells_ne hplace hlt.ne him hq1 hp hq2 (by omega) (by omega)
  · rw [hC] at hx hout
    rw [hread, memRead_loadAll_other]
    · rfl
    · intro q hq k hk
      obtain ⟨w, hw⟩ := List.getElem?_of_mem hq
      obtain ⟨hq1, hq2⟩ := hzip hw
      rw [length_imageRecords (hvalid q.1 (List.mem_of_getElem? hq1))] at hk
      rw [Nat.mod_eq_of_lt hx]
      exact (hout w q.2 k q.1 hq1 hq2 hk).symm

/-! ## The warriors after a reset -/

/-- The warriors with one process each, at the load addresses. -/
def startWarriors (ws : List Warrior) (places : List Nat) : List Warrior :=
  (ws.zip places).map fun p => { p.1 with queue := [p.2] }

/-- A warrior of a match reset, before it has a process. -/
def freshWarrior (im : ProgramImage) : Warrior := { id := im.id, queue := [], pspace := [] }

/-- A match reset starts fresh warriors, as a round reset starts those of the match. -/
theorem startWarriors_fresh (images : List ProgramImage) (places : List Nat) :
    startWarriors (images.map freshWarrior) places =
      (images.zip places).map fun p => { id := p.1.id, queue := [p.2], pspace := [] } := by
  rw [startWarriors, List.zip_map_left, List.map_map]
  rfl

section Start

variable {ws : List Warrior} {places : List Nat} (hlen : places.length = ws.length)
include hlen

theorem length_startWarriors : (startWarriors ws places).length = ws.length := by
  simp [startWarriors, hlen]

theorem map_id_startWarriors : (startWarriors ws places).map (·.id) = ws.map (·.id) := by
  have hfst : (ws.zip places).map Prod.fst = ws := List.map_fst_zip hlen.ge
  conv_rhs => rw [← hfst, List.map_map]
  rw [startWarriors, List.map_map]
  rfl

theorem startWarriors_getElem? (w : Nat) :
    (startWarriors ws places)[w]? = (ws[w]?).map fun x => { x with queue := (places[w]?).toList } := by
  rw [startWarriors, List.getElem?_map]
  rcases Nat.lt_or_ge w ws.length with hw | hw
  · have hp : w < places.length := hlen ▸ hw
    have hz : w < (ws.zip places).length := by simp [hlen, hw]
    simp [List.getElem?_eq_getElem hz, List.getElem?_eq_getElem hw, List.getElem?_eq_getElem hp]
  · rw [List.getElem?_eq_none hw, List.getElem?_eq_none (by simp [hw])]
    rfl

/-- Each warrior has one process, at its load address. -/
theorem queueOf_startWarriors {s : State} (h : s.warriors = startWarriors ws places) {w p : Nat}
    (hp : places[w]? = some p) : queueOf s w = [p] := by
  have hw : w < ws.length := hlen ▸ (List.getElem?_eq_some_iff.1 hp).1
  rw [queueOf_eq, h, startWarriors_getElem? hlen, List.getElem?_eq_getElem hw, hp]
  rfl

/-- The start of a round reaches no p-space. -/
theorem pspaceOf_startWarriors {s s' : State} (h : s'.warriors = startWarriors s.warriors places)
    (hs : s.warriors = ws) (w : Nat) : pspaceOf s' w = pspaceOf s w := by
  rw [pspaceOf_eq, pspaceOf_eq, h, startWarriors_getElem? (hs ▸ hlen), Option.map_map]
  rfl

end Start

/-- Started at core addresses, warriors with legal p-spaces are legal, and all Active. -/
theorem startWarriors_ok {ws : List Warrior} {places : List Nat} {cfg : Cfg} (hcfg : CfgLegal cfg)
    (hplaces : ∀ p ∈ places, (p : Int) < cfg.coreSize)
    (hws : ∀ x ∈ ws, PSpaceOk cfg x.pspace) : ∀ x ∈ startWarriors ws places, WarriorOk cfg x ∧ x.queue ≠ [] := by
  intro x hx
  obtain ⟨⟨y, p⟩, hyp, rfl⟩ := List.mem_map.1 hx
  obtain ⟨hy, hp⟩ := List.of_mem_zip hyp
  obtain ⟨-, -, -, -, -, hmax, -⟩ := hcfg
  obtain ⟨hwf, hps⟩ := hws y hy
  have hlt : p < cfg.coreSize := by exact_mod_cast hplaces p hp
  exact ⟨⟨by simpa using hlt, by simpa using hmax, hwf, hps⟩, by simp⟩

/-! ## The first cause of a refusal -/

theorem firstCause_nil {e : ConfigError} : ¬ FirstCause [] e := by
  rintro ⟨earlier, later, c, h, -⟩
  simp at h

/-- The first cause is the head's, or the head does not hold and it is the tail's. -/
theorem firstCause_cons {e₀ e : ConfigError} {c₀ : Prop} {causes : List (ConfigError × Prop)} :
    FirstCause ((e₀, c₀) :: causes) e ↔ (c₀ ∧ e₀ = e) ∨ (¬ c₀ ∧ FirstCause causes e) := by
  constructor
  · rintro ⟨earlier, later, c, h, hc, hnot⟩
    cases earlier with
    | nil =>
      simp only [List.nil_append, List.cons.injEq, Prod.mk.injEq] at h
      obtain ⟨⟨rfl, rfl⟩, -⟩ := h
      exact .inl ⟨hc, rfl⟩
    | cons x earlier =>
      simp only [List.cons_append, List.cons.injEq] at h
      obtain ⟨rfl, rfl⟩ := h
      exact .inr ⟨hnot _ (List.mem_cons_self ..), earlier, later, c, rfl, hc,
        fun x hx => hnot x (List.mem_cons_of_mem _ hx)⟩
  · rintro (⟨hc, rfl⟩ | ⟨hnot, earlier, later, c, rfl, hc, hearlier⟩)
    · exact ⟨[], causes, c₀, rfl, hc, by simp⟩
    · refine ⟨(e₀, c₀) :: earlier, later, c, rfl, hc, fun x hx => ?_⟩
      rcases List.mem_cons.1 hx with rfl | hx
      · exact hnot
      · exact hearlier x hx

/-- `o` reports the first cause of the list. -/
def Reports (o : Option ConfigError) (causes : List (ConfigError × Prop)) : Prop :=
  ∀ e, o = some e ↔ FirstCause causes e

theorem reports_nil : Reports none [] := fun e => by simp [firstCause_nil]

/-- One test more before the others: its condition is a cause, and the others are reached where it does not hold. -/
theorem reports_ite {c c' : Prop} [Decidable c] {e₀ : ConfigError} {o z : Option ConfigError}
    {causes : List (ConfigError × Prop)} (hc : c ↔ c') (h : ¬ c' → Reports (o.or z) causes) :
    Reports ((if c then some e₀ else o).or z) ((e₀, c') :: causes) := by
  intro e
  rw [firstCause_cons]
  by_cases hc' : c'
  · simp [hc, hc']
  · simp [hc, hc', h hc' e]

/-- The configuration's check and then the placement's report the first cause of `configCauses`. -/
theorem reports_configCauses (images : List ProgramImage) (ci : ConfigInput) (places : List Nat) :
    Reports ((validateConfig images ci).or
        (if validPlacement ci.cfg.coreSize ci.minSeparation images places then none else some .badPlacement))
      (configCauses images ci places) := by
  unfold validateConfig configCauses
  refine reports_ite Iff.rfl fun _ => ?_
  refine reports_ite (by rw [← coreTooSmall_eq_false, Bool.not_eq_false]) fun _ => ?_
  refine reports_ite Iff.rfl fun _ => ?_
  refine reports_ite Iff.rfl fun hC => ?_
  refine reports_ite (by omega) fun _ => ?_
  refine reports_ite Iff.rfl fun _ => ?_
  refine reports_ite (by simp [lengths]) fun _ => ?_
  refine reports_ite Iff.rfl fun _ => ?_
  refine reports_ite Iff.rfl fun _ => ?_
  have hcast : (ci.cfg.coreSize : Int) = ci.coreSize := Int.toNat_of_nonneg (by omega)
  have hplace : ¬ validPlacement ci.cfg.coreSize ci.minSeparation images places = true ↔
      ¬ PlacementRule ci.coreSize ci.minSeparation images places := by
    rw [validPlacement_iff, hcast]
  have := reports_ite (e₀ := .badPlacement) (o := none) (z := none) hplace fun _ => reports_nil
  rw [Option.or_none, ite_not] at this
  rwa [Option.none_or]

/-! ## What setup answers -/

theorem setup_eq_validation {images : List ProgramImage} {ci : ConfigInput} {places : List Nat} {e : ValidationError} :
    setup images ci places = .error (.validation e) ↔ validateImages ci.coreSize.toNat images = some e := by
  unfold setup
  cases validateImages ci.coreSize.toNat images with
  | some e' => simp
  | none =>
    cases validateConfig images ci with
    | some e' => simp
    | none => dsimp only; split <;> simp

theorem setup_eq_config {images : List ProgramImage} {ci : ConfigInput} {places : List Nat} {e : ConfigError} :
    setup images ci places = .error (.config e) ↔ ImagesValid ci.coreSize.toNat images ∧
      FirstCause (configCauses images ci places) e := by
  rw [← validateImages_eq_none, ← reports_configCauses images ci places e]
  unfold setup
  cases validateImages ci.coreSize.toNat images with
  | some e' => simp
  | none =>
    cases validateConfig images ci with
    | some e' => simp
    | none => dsimp only; split <;> simp

/-- The first invalid instruction is the one whose cause is reported. -/
theorem validateImages_eq_some {C : Nat} {images : List ProgramImage} {e : ValidationError} :
    validateImages C images = some e ↔
      ∃ before i after, images.flatMap (·.instructions) = before ++ i :: after ∧ readImageInstr C i = .error e ∧
        ∀ j ∈ before, ∃ r, readImageInstr C j = .ok r := by
  have hsome (i : ImageInstr) : imageInstrError C i = some e ↔ readImageInstr C i = .error e := by
    unfold imageInstrError
    cases readImageInstr C i <;> simp
  have hnone (i : ImageInstr) : imageInstrError C i = none ↔ ∃ r, readImageInstr C i = .ok r := by
    unfold imageInstrError
    cases readImageInstr C i <;> simp
  simp only [validateImages, List.findSome?_eq_some_iff, hsome, hnone]

/-! ## The state that setup answers -/

section Answer

variable {images : List ProgramImage} {ci : ConfigInput} {places : List Nat} {s : State}

/-- What setup has checked and what it leaves, in the terms of the state `s` that it answers. -/
structure Accepted (images : List ProgramImage) (ci : ConfigInput) (places : List Nat) (s : State) : Prop where
  valid : ImagesValid s.cfg.coreSize images
  fits : ProgramsFit s.cfg.coreSize s.cfg.minSeparation images
  placed : PlacementRule s.cfg.coreSize s.cfg.minSeparation images places
  legal : CfgLegal s.cfg
  nonempty : images ≠ []
  distinct : (images.map (·.id)).Nodup
  maxCycles : (s.cfg.maxCycles : Int) = ci.maxCycles
  cfg : s.cfg = ci.cfg
  core : s.core = loadAll s.cfg.coreSize [] (images.zip places)
  warriors : s.warriors = startWarriors (images.map freshWarrior) places
  cycleCount : s.cycleCount = 0
  turnPtr : s.turnPtr = 0
  n0 : s.n0 = images.length
  tested : ∃ s₀, s = evaluateEnd s₀

theorem setup_accepted (h : setup images ci places = .ok s) : Accepted images ci places s := by
  obtain ⟨hvalid, hconfig, hplace, rfl⟩ := setup_eq_ok.1 h
  obtain ⟨hP, hfit, hmax, hC, ⟨hr2, hrC, hw2, hwC⟩, hne, -, hids, hcycles⟩ := validateConfig_eq_none.1 hconfig
  have hcast : (ci.cfg.coreSize : Int) = ci.coreSize := Int.toNat_of_nonneg hC.le
  have hlegal : CfgLegal ci.cfg := by
    simp only [CfgLegal, ConfigInput.cfg]
    omega
  exact {
    valid := hvalid
    fits := hcast ▸ hfit
    placed := hplace
    legal := hlegal
    nonempty := hne
    distinct := hids
    maxCycles := Int.toNat_of_nonneg hcycles
    cfg := rfl
    core := rfl
    warriors := (startWarriors_fresh images places).symm
    cycleCount := rfl
    turnPtr := rfl
    n0 := rfl
    tested := ⟨_, rfl⟩ }

theorem Accepted.length_places (h : Accepted images ci places s) :
    places.length = (images.map freshWarrior).length := by
  rw [h.placed.1, List.length_map]

theorem Accepted.length_warriors (h : Accepted images ci places s) : s.warriors.length = images.length := by
  rw [h.warriors, length_startWarriors h.length_places, List.length_map]

theorem Accepted.ids (h : Accepted images ci places s) : s.warriors.map (·.id) = images.map (·.id) := by
  rw [h.warriors, map_id_startWarriors h.length_places, List.map_map]
  rfl

/-- Every warrior is legal, and Active. -/
theorem Accepted.warriors_ok (h : Accepted images ci places s) :
    ∀ x ∈ s.warriors, WarriorOk s.cfg x ∧ x.queue ≠ [] := by
  rw [h.warriors]
  refine startWarriors_ok h.legal h.placed.2.1 fun x hx => ?_
  obtain ⟨im, -, rfl⟩ := List.mem_map.1 hx
  exact ⟨rfl, by simp [freshWarrior]⟩

theorem Accepted.activeIds_eq (h : Accepted images ci places s) : activeIds s = images.map (·.id) := by
  rw [← h.ids, activeIds]
  refine congrArg _ (List.filter_eq_self.2 fun x hx => ?_)
  obtain ⟨-, hq⟩ := h.warriors_ok x hx
  simpa using hq

/-- The invariant where a match begins. -/
theorem Accepted.inv (h : Accepted images ci places s) : Inv s := by
  have hcore : CoreOk s.cfg.coreSize s.core := by
    rw [h.core]; exact loadAll_coreOk h.legal.1 ⟨rfl, by simp⟩ _
  have hn0 : s.n0 = s.warriors.length := h.n0.trans h.length_warriors.symm
  have hpos : 0 < s.warriors.length := by rw [h.length_warriors]; exact List.length_pos_iff.2 h.nonempty
  have hws := h.warriors_ok
  have hids : (s.warriors.map (·.id)).Nodup := by rw [h.ids]; exact h.distinct
  have hlegal := h.legal
  have hptr := h.turnPtr
  have hcycle := h.cycleCount
  obtain ⟨s₀, rfl⟩ := h.tested
  exact inv_evaluateEnd hlegal hcore hws hn0 hids hpos hptr hcycle

end Answer

/-! ## The obligations -/

/-- Settles O54: one lemma for each of the three answers. -/
theorem setupAcceptsExactlyTheLegalInputs : Obligations.SetupAcceptsExactlyTheLegalInputs := by
  intro images ci places C
  refine ⟨?_, fun e => setup_eq_validation.trans validateImages_eq_some, fun e => setup_eq_config⟩
  simp only [setup_eq_ok, validateConfig_eq_none]
  constructor
  · rintro ⟨s, hvalid, ⟨hP, hfit, hmax, hC, ⟨hr2, hrC, hw2, hwC⟩, hne, hempty, hids, hcycles⟩, hplace, -⟩
    rw [Int.toNat_of_nonneg hC.le] at hplace
    exact ⟨hvalid, hP, hfit, hmax, hC, ⟨hr2, hrC⟩, ⟨hw2, hwC⟩, hne, hempty, hids, hcycles, hplace⟩
  · rintro ⟨hvalid, hP, hfit, hmax, hC, ⟨hr2, hrC⟩, ⟨hw2, hwC⟩, hne, hempty, hids, hcycles, hplace⟩
    rw [← Int.toNat_of_nonneg (show 0 ≤ ci.coreSize by omega)] at hplace
    exact ⟨_, hvalid, ⟨hP, hfit, hmax, hC, ⟨hr2, hrC, hw2, hwC⟩, hne, hempty, hids, hcycles⟩, hplace, rfl⟩

/-- Settles O55: the checks that setup passed and the state that it answers. -/
theorem setupLeavesTheResetState : Obligations.SetupLeavesTheResetState := by
  intro images ci places s h
  have ha := setup_accepted h
  have hpspace (w : Nat) : pspaceOf s w = [] := by
    rw [pspaceOf_eq, ha.warriors, startWarriors_getElem? ha.length_places, List.getElem?_map]
    cases images[w]? <;> rfl
  refine ⟨coreLoaded_loadAll ha.valid ha.fits ha.placed rfl ha.core,
    fun w p hp => queueOf_startWarriors ha.length_places ha.warriors hp, ha.length_warriors, fun w i => ?_, ha.ids,
    ha.cfg, ha.n0, ha.cycleCount, ha.turnPtr⟩
  rw [pRead, hpspace]
  rfl

/-- Settles O56: one process each at core addresses, in a core of valid records. -/
theorem setupGivesALegalMatch : Obligations.SetupGivesALegalMatch := by
  intro images ci places s h
  exact (setup_accepted h).inv

/-- Settles O57: with every warrior Active the count is above the threshold, and the pass limit decides. -/
theorem zeroMaxCyclesEndsTheMatchAtSetup : Obligations.ZeroMaxCyclesEndsTheMatchAtSetup := by
  intro images ci places s h
  have ha := setup_accepted h
  have hpos := List.length_pos_iff.2 ha.nonempty
  have hmany : ¬ activeCount s ≤ endThreshold s := by
    rw [activeCount, ha.activeIds_eq, List.length_map, endThreshold, ha.n0]
    split <;> omega
  have hcycles := ha.maxCycles
  refine ⟨fun h0 => ⟨?_, ha.cycleCount⟩, fun h1 => ?_⟩
  · have hend : endCondition s = true := endCondition_iff.2 (.inr ⟨by omega, ha.turnPtr⟩)
    rw [ha.inv.status_eq, statusOf_of_endCondition hend, outcome_limit hmany, ha.activeIds_eq]
  · rw [ha.inv.status_eq, statusOf_eq_running, endCondition_iff, ha.cycleCount]
    rintro (hfew | ⟨hspent, -⟩)
    · exact hmany hfew
    · omega

/-- Settles O60: the reset starts the match's own warriors, so that it keeps their ids and p-spaces. -/
theorem aNewRoundKeepsThePSpaces : Obligations.ANewRoundKeepsThePSpaces := by
  intro images places s s' hinv h
  obtain ⟨hvalid, hconfig, hplace, hcount, rfl⟩ := newRound_eq_ok.1 h
  obtain ⟨-, hfit, -⟩ := validateConfig_eq_none.1 hconfig
  have hlen : places.length = s.warriors.length := hplace.1.trans hcount
  have hps (x : Warrior) (hx : x ∈ s.warriors) : PSpaceOk s.cfg x.pspace := by
    obtain ⟨-, -, hwf, hcells⟩ := hinv.warriors_ok x hx
    exact ⟨hwf, hcells⟩
  have hcount' := length_startWarriors hlen
  have hids := map_id_startWarriors hlen
  refine ⟨inv_evaluateEnd hinv.cfg_legal (loadAll_coreOk hinv.cfg_legal.1 ⟨rfl, by simp⟩ _)
      (startWarriors_ok hinv.cfg_legal hplace.2.1 hps) (hinv.n0_eq.trans hcount'.symm)
      (hids.symm ▸ hinv.ids_distinct) ?_ rfl rfl,
    coreLoaded_loadAll hvalid hfit hplace rfl rfl, fun w i => ?_, hids, rfl, rfl, rfl, rfl,
    fun w p hp => queueOf_startWarriors hlen rfl hp⟩
  · exact hcount'.symm ▸ Nat.lt_of_le_of_lt (Nat.zero_le _) hinv.cursor_lt
  · rw [pRead, pspaceOf_startWarriors hlen rfl rfl, pRead]
    rfl

end Sys2Proof.Proofs.Setup
end

section
/-! A match ends within N * MAXC turns: each turn uses up one of the turns that the pass limit
leaves (70_reset R328). -/

namespace Sys2Proof.Proofs.Termination

open Sys2Proof Sys2Proof.Machine Sys2Proof.Proofs.Frame Sys2Proof.Proofs.Scheduler Sys2Proof.Proofs.Legal
  Sys2Proof.Proofs.Setup

/-- The most turns that a match can still take: those of the passes not yet begun, and of the pass begun the places in
the rotation from the cursor on. -/
def turnsLeft (s : State) : Nat :=
  s.warriors.length * (s.cfg.maxCycles - s.cycleCount) + if s.turnPtr = 0 then 0 else s.warriors.length - s.turnPtr

/-- A turn uses up at least one. -/
theorem turnsLeft_step {s s' : State} (hinv : Inv s) (hr : s.status = .running) (h : step s = .next s') :
    turnsLeft s' < turnsLeft s := by
  obtain ⟨w, pc, rest, s₁, hf, hexec, rfl⟩ := step_running hr h
  obtain ⟨hcfg, -, hcycle, hothers⟩ := step_frame hf hexec
  obtain ⟨-, hpass⟩ := inv_running hinv hr
  have hw := frontProcess_lt hf
  obtain ⟨hle, -, -⟩ := nextActive_eq_some.1 (frontProcess_eq_some.1 hf).1
  have hcursor : (finishTurn s₁ w).turnPtr = w + 1 ∨ (finishTurn s₁ w).turnPtr = 0 := by
    rw [finishTurn_turnPtr]; split <;> simp
  rw [turnsLeft, turnsLeft, hothers.length_eq, hcfg, hcycle]
  by_cases h0 : s.turnPtr = 0
  · obtain ⟨k, hk⟩ := Nat.exists_eq_add_of_lt (hpass h0)
    rw [if_pos h0, if_pos h0, hk, show s.cycleCount + k + 1 - s.cycleCount = k + 1 by omega,
      show s.cycleCount + k + 1 - (s.cycleCount + 1) = k by omega, Nat.mul_succ]
    rcases hcursor with hc | hc
    · rw [hc, if_neg (Nat.succ_ne_zero w)]; omega
    · rw [hc, if_pos rfl]; omega
  · rw [if_neg h0, if_neg h0]
    rcases hcursor with hc | hc
    · rw [hc, if_neg (Nat.succ_ne_zero w)]; omega
    · rw [hc, if_pos rfl]; omega

/-- A legal match runs to its end within the turns it has left, and its end is legal too. -/
theorem runMatch_ends {s : State} (hinv : Inv s) {k : Nat} (hk : turnsLeft s ≤ k) :
    ∃ s' o, runMatch k s = some s' ∧ s'.status = .ended o ∧ Inv s' ∧ s'.cfg = s.cfg := by
  induction k generalizing s with
  | zero =>
    cases hr : s.status with
    | ended o => exact ⟨s, o, rfl, hr, hinv, rfl⟩
    | running =>
      obtain ⟨s', hstep⟩ := exists_step_of_inv hinv
      have := turnsLeft_step hinv hr hstep
      omega
  | succ k ih =>
    cases hr : s.status with
    | ended o => exact ⟨s, o, by simp only [runMatch, hr], hr, hinv, rfl⟩
    | running =>
      obtain ⟨s₁, hstep⟩ := exists_step_of_inv hinv
      have hless := turnsLeft_step hinv hr hstep
      obtain ⟨s', o, hrun, hend, hinv', hcfg⟩ := ih (everyStepKeepsTheMatchLegal s s₁ hinv hstep) (by omega)
      obtain ⟨-, hcfg₁, -⟩ := thePassCounterRisesAtThePassStart s s₁ hr hstep
      exact ⟨s', o, by simp only [runMatch, hr, hstep, hrun], hend, hinv', hcfg.trans hcfg₁⟩

/-- A match that begins has the bound of 70_reset R328 left. -/
theorem turnsLeft_of_start {s : State} (hcycle : s.cycleCount = 0) (hptr : s.turnPtr = 0) :
    turnsLeft s = turnBound s := by
  rw [turnsLeft, hcycle, if_pos hptr, turnBound, Nat.sub_zero, Nat.add_zero]

/-- Settles O53: setup's match is legal and has `turnBound` turns left. -/
theorem everyMatchEndsWithAResult : Obligations.EveryMatchEndsWithAResult := by
  intro images ci places s h
  have ha := setup_accepted h
  obtain ⟨s', o, hrun, hend, hinv', hcfg⟩ := runMatch_ends ha.inv (turnsLeft_of_start ha.cycleCount ha.turnPtr).le
  refine ⟨{ outcome := o, cycleCount := s'.cycleCount }, ?_, ?_⟩
  · simp only [simulateMatch, h, hrun, Option.bind_some, matchResult, hend]
  · rw [← hcfg]
    exact hinv'.cycle_le

end Sys2Proof.Proofs.Termination
end
